-- ==== Sys2Proof/Word.lean ====
section
/-! DEFINITION. The word types of the block (spec/00_scope.md R6, R8, R9). -/

namespace Sys2Proof

/-- One byte of memory. -/
abbrev Byte := BitVec 8

/-- One register word, `W_WORD` = 32 bits (R6). -/
abbrev Word := BitVec 32

/-- A time, compare value or clock value in milliseconds: `W_TIME` = 64 bits, unsigned, arithmetic
modulo 2^64 (R6, R9, R16). -/
abbrev Time := BitVec 64

/-- The 16-bit operation word (spec/30_encoding.md R68). -/
abbrev OpWord := BitVec 16

end Sys2Proof
end

