-- ==== Sys2Proof/Config.lean ====
section
/-! DEFINITION. The parameters of spec/00_scope.md R6: the fixed ones as constants, the OPEN ones as a record of plain
data that the state carries, so that every statement about a state holds for every value of them; and the free values. -/

namespace Sys2Proof

/-- A run of consecutive byte addresses, `base` to `base + size - 1`. -/
structure Region where
  base : Nat
  size : Nat
  deriving DecidableEq, Repr

/-- One bit of a named CSR (`TIE_SRC`, `GIE_SRC` of R6). -/
structure CsrBit where
  csr : String
  bit : Nat
  deriving DecidableEq, Repr

/-- The OPEN parameters of R6 (I12 of spec/93_implementation_defined.md).

`base` is BASE (D19), `valid` the regions whose bytes are MEM_VALID (D22), `memInit` the memory contents before any write
(MEM_INIT, D8), `cmpInit` is CMP_INIT (D6), `irqCode` is TIMER_IRQ_CODE (D20), `tieSrc` and `gieSrc` say which CSR bits
drive the inputs `tie` and `gie` (D21): the CSR store is a collaborator (R5), so no rule of the block reads those two. -/
structure Config where
  base    : Word
  valid   : List Region
  memInit : List (Nat × Byte)
  cmpInit : Time
  irqCode : Nat
  tieSrc  : CsrBit
  gieSrc  : CsrBit
  deriving DecidableEq, Repr

/-- The size of the address space: byte addresses of `ADDR_WIDTH` = 32 bits (R6, R46). -/
abbrev addrSpace : Nat := 0x100000000

/-- Offset of TIME_LO from BASE (R6, R48). -/
abbrev offTimeLo : Nat := 0x18
/-- Offset of TIME_HI from BASE (R6, R48). -/
abbrev offTimeHi : Nat := 0x1C
/-- Offset of TIMECMP_LO from BASE (R6, R48). -/
abbrev offCmpLo : Nat := 0x20
/-- Offset of TIMECMP_HI from BASE (R6, R48). -/
abbrev offCmpHi : Nat := 0x24
/-- Size of the watched compare range in bytes, `CMP_RANGE` (R6). -/
abbrev cmpRangeBytes : Nat := 8
/-- Bytes in a register word. -/
abbrev wordBytes : Nat := 4
/-- The last byte of the window, `BASE + 0x27` (R47). -/
abbrev offWindowEnd : Nat := offCmpHi + wordBytes - 1
/-- Bytes of the window, `BASE + 0x18` to `BASE + 0x27`. -/
abbrev windowBytes : Nat := offWindowEnd + 1 - offTimeLo
/-- An offset as the field `off` of a bus word (R70). The four offsets above are the one place that names them (R7). -/
abbrev offByte (off : Nat) : BitVec 8 := BitVec.ofNat 8 off

/-- R47: BASE is a multiple of 4 and the window does not pass the end of the address space. A configuration that breaks
this is refused before the first step. -/
def Config.ok (c : Config) : Bool :=
  decide (c.base.toNat % 4 = 0 ∧ c.base.toNat + offWindowEnd ≤ addrSpace - 1)

/-- The configuration that `State.reset` carries. PRESUMED (log 4): BASE, the event code and the CSR bits are those the
spec reports of RARS as general knowledge (D19, D20, D21), on which no rule depends; every byte of the address space is
MEM_VALID; MEM_INIT is all zero; CMP_INIT is the spec's default 0 (R6, D6). -/
def Config.presumed : Config where
  base    := 0xFFFF0000#32
  valid   := [⟨0, addrSpace⟩]
  memInit := []
  cmpInit := 0#64
  irqCode := 4
  tieSrc  := ⟨"uie", 4⟩
  gieSrc  := ⟨"ustatus", 0⟩

/-- Free value (log 8): what stands for the sync point where none was ever set. Read only in states that no run reaches
(R28, R30). -/
opaque Config.unsetSync : Time

/-- Free values (log 7): the bytes a software access outside the memory region leaves or returns, indexed by the
counter `draws` of the state (R94: "the memory's own handling of an invalid address is outside the block"). -/
opaque Config.freeByte : Nat → Byte

end Sys2Proof
end

