-- ==== Sys2Proof/Machine/State.lean ====
section
/-! DEFINITION. The state of the block and of what it acts on (spec/10_state.md), as plain data; the reasons a step stops;
block reset (R43). -/

namespace Sys2Proof.Machine

/-- The phase of the Host agent (R22). -/
inductive HostPhase where
  /-- No lifecycle command is in progress. -/
  | ready
  /-- A RESET or STOP has yet to write zero to TIME_LO. -/
  | zeroLo
  /-- A RESET or STOP has yet to write zero to TIME_HI. -/
  | zeroHi
  deriving DecidableEq, Repr

/-- The phase of the Tick agent, with the time it sampled (R23, R41). -/
inductive TickPhase where
  /-- No tick is in flight. -/
  | idle
  /-- The tick has yet to write TIME_LO. -/
  | wLo (t : Time)
  /-- The tick has yet to write TIME_HI. -/
  | wHi (t : Time)
  /-- The tick has yet to evaluate the interrupt condition. -/
  | eval (t : Time)
  deriving DecidableEq, Repr

/-- Byte-addressable memory (R46): the bytes that differ from what an unlisted address reads as, addresses rising. -/
abbrev Memory := List Host.Cell

/-- The machine: the parameters, the block's fields in the order of spec/10_state.md, the collaborator memory with the
four window words, the Env inputs, the outputs, and the model's own fields. -/
structure State where
  /-- The parameters of R6; no step writes them. -/
  cfg       : Config
  /-- R24: the lifecycle state is `Running`; the scheduler is active. -/
  started   : Bool
  /-- R26: TimeAccumulator's `running`. -/
  playing   : Bool
  /-- R27: `elapsedAtLastSync`. -/
  elapsed   : Time
  /-- R28: `wallClockAtLastSync`; none when never set. -/
  sync      : Option Time
  /-- R31: the compare value held by the Watcher. -/
  cmpValue  : Time
  /-- R32: the interrupt arm latch. -/
  armed     : Bool
  /-- R33: the Watcher exists and is subscribed. -/
  watcherOn : Bool
  /-- R22. -/
  host      : HostPhase
  /-- R23. -/
  tick      : TickPhase
  /-- R34: the byte address of a FatalConfigurationError. -/
  fatal     : Option Nat
  /-- R35: an operation without a meaning has occurred. -/
  refused   : Bool
  /-- R46: the collaborator memory, the words of R36 to R39 in it. -/
  mem       : Memory
  /-- R14: the clock input. -/
  clk       : Time
  /-- R15: the timer-interrupt-enable input. -/
  tie       : Bool
  /-- R15: the global-interrupt-enable input. -/
  gie       : Bool
  /-- R111: the event codes delivered to the interrupt sink, oldest first. -/
  delivered : List Nat
  /-- R97: the values loads have returned to the Bus, oldest first (the model's record, log 9). -/
  loaded    : List Word
  /-- R71: the bytes of the operations still to be taken (the model's own, log 1). -/
  trace     : List Byte
  /-- How many free bytes have been drawn (the model's own, log 7). -/
  draws     : Nat
  deriving DecidableEq, Repr

/-- Why the machine stops. -/
inductive Fault where
  /-- A FatalConfigurationError at byte address `a` has occurred (R114): the step that finds the byte writes `fatal` and
  ends, and every step attempted after it, of any agent, answers this fault. Safe: the machine has no further step. -/
  | fatalConfiguration (a : Nat)
  deriving DecidableEq, Repr

/-- Why the model gives no meaning. -/
inductive Refusal where
  /-- Raised by `exec` for an instruction without a meaning (none in this model). Safe: no claim about it can be proved. -/
  | notModelled (mnemonic : String)
  /-- Raised by `step` before any step of a machine whose BASE breaks R47. Safe: the spec refuses such a machine. -/
  | badConfiguration
  deriving DecidableEq, Repr

/-- Block reset (R43, R130) for every choice of what the spec leaves open: the parameters and the Env inputs. -/
def State.resetWith (cfg : Config) (clk : Time) (tie gie : Bool) : State where
  cfg       := cfg
  started   := false
  playing   := false
  elapsed   := 0#64
  sync      := none
  cmpValue  := cfg.cmpInit
  armed     := false
  watcherOn := false
  host      := .ready
  tick      := .idle
  fatal     := none
  refused   := false
  mem       := cfg.memInit
  clk       := clk
  tie       := tie
  gie       := gie
  delivered := []
  loaded    := []
  trace     := []
  draws     := 0

/-- The machine right after block reset. The parameters are `Config.presumed` (PRESUMED, log 4); `clk` 0, `tie` and `gie`
false stand for the spec's "any value" (DESIGN CHOICE, log 5). -/
def State.reset : State := State.resetWith Config.presumed 0#64 false false

end Sys2Proof.Machine
end

