-- ==== Sys2Proof/Syntax.lean ====
section
/-! DEFINITION. The operations of the block (spec/30_encoding.md R67 to R72): one constructor per row of
spec/opcode_table.json. -/

namespace Sys2Proof

/-- One step of an agent. `off` is the byte offset from BASE (R70); the value of a store is the low `8n` bits of the data
operand (R72). -/
inductive Instr where
  /-- START, word 0x0000 (R84). -/
  | start
  /-- PLAY, word 0x0001 (R85). -/
  | play
  /-- PAUSE, word 0x0002 (R86). -/
  | pause
  /-- STOP, word 0x0003 (R88). -/
  | stop
  /-- RESET, word 0x0004 (R87). -/
  | reset
  /-- SW_TIMECMP_LO, word 0x3020 and 32-bit data (R95). -/
  | swTimecmpLo (w : Word)
  /-- SW_TIMECMP_HI, word 0x3024 and 32-bit data (R96). -/
  | swTimecmpHi (w : Word)
  /-- SW_TIME_LO, word 0x3018 and 32-bit data (R100). -/
  | swTimeLo (w : Word)
  /-- SW_TIME_HI, word 0x301C and 32-bit data (R100). -/
  | swTimeHi (w : Word)
  /-- SB, word 0x2000 + off and 32-bit data, low 8 bits meaningful (R94, R72). -/
  | sb (off : BitVec 8) (v : BitVec 8)
  /-- SH, word 0x2800 + off and 32-bit data, low 16 bits meaningful (R94, R72). -/
  | sh (off : BitVec 8) (v : BitVec 16)
  /-- SW, word 0x3000 + off and 32-bit data, off none of the four named ones (R94, R74). -/
  | sw (off : BitVec 8) (v : Word)
  /-- LW_TIME_LO, word 0x5018 (R97). -/
  | lwTimeLo
  /-- LW_TIME_HI, word 0x501C (R97). -/
  | lwTimeHi
  /-- LW_TIMECMP_LO, word 0x5020 (R97). -/
  | lwTimecmpLo
  /-- LW_TIMECMP_HI, word 0x5024 (R97). -/
  | lwTimecmpHi
  /-- LB, word 0x4000 + off (R97). -/
  | lb (off : BitVec 8)
  /-- LH, word 0x4800 + off (R97). -/
  | lh (off : BitVec 8)
  /-- LW, word 0x5000 + off, off none of the four named ones (R97, R74). -/
  | lw (off : BitVec 8)
  /-- TICK, word 0x6000: tick sub-step T1 (R104). -/
  | tick
  /-- CLK_SET, word 0x6001 and a 64-bit clock value (R14). -/
  | clkSet (t : Time)
  /-- CSR_SET, word 0x6002 with tie in bit 4 and gie in bit 3 (R15). -/
  | csrSet (tie gie : Bool)
  /-- T_WLO, word 0x6003: tick sub-step T2 (R105). -/
  | tWlo
  /-- T_WHI, word 0x6004: tick sub-step T3 (R106). -/
  | tWhi
  /-- T_EVAL, word 0x6005: tick sub-step T4 (R107). -/
  | tEval
  /-- H_ZLO, word 0x6006: zero write of TIME_LO (R90). -/
  | hZlo
  /-- H_ZHI, word 0x6007: zero write of TIME_HI (R91). -/
  | hZhi
  deriving DecidableEq, Repr

end Sys2Proof
end

