-- ==== Sys2Proof/Machine/Flags.lean ====
section
/-! DEFINITION. The lifecycle state as a function of two flags (spec/10_state.md R25), the reported time (R29), the
interrupt condition (spec/43_tick.md R108), and when an agent's step is enabled (R13, R83, R90, R91, R103, R105 to R107). -/

namespace Sys2Proof.Machine

/-- LifecycleState (R25). -/
inductive Lifecycle where
  | stopped
  | runningPaused
  | runningPlaying
  deriving DecidableEq, Repr

/-- R25. -/
def State.lifecycle (s : State) : Lifecycle :=
  if s.started then (if s.playing then .runningPlaying else .runningPaused) else .stopped

/-- The sync point; a free value where none was ever set, which no run reads (R28, R30, log 8). -/
def State.syncPoint (s : State) : Time := s.sync.getD Config.unsetSync

/-- R29: the reported time at clock value `c`, modulo 2^64 (R9). -/
def State.reportedTime (s : State) (c : Time) : Time :=
  if s.playing then s.elapsed + (c - s.syncPoint) else s.elapsed

/-- R108: the Interrupt Condition Evaluator; the comparison is unsigned. -/
def evaluate (t c : Time) (armed tie gie : Bool) : Bool := decide (c.toNat ≤ t.toNat) && armed && tie && gie

/-- R83: a command is accepted. -/
def State.acceptsCommand (s : State) : Bool := decide (s.host = .ready)

/-- R103: a tick may begin. -/
def State.mayBeginTick (s : State) : Bool := s.started && decide (s.tick = .idle)

/-- R14: the Env agent may set the clock to `t`, never below its present value. -/
def State.mayRaiseClock (s : State) (t : Time) : Bool := decide (s.clk.toNat ≤ t.toNat)

/-- The part of a step's enabling condition that is not `fatal = none`: the phase of its agent (R71, R83, R90, R91, R103,
R105, R106, R107, R14). Bus accesses and CSR_SET are always ready. -/
def State.ready (s : State) : Instr → Bool
  | .start | .play | .pause | .stop | .reset => s.acceptsCommand
  | .swTimecmpLo _ | .swTimecmpHi _ | .swTimeLo _ | .swTimeHi _ | .sb _ _ | .sh _ _ | .sw _ _ => true
  | .lwTimeLo | .lwTimeHi | .lwTimecmpLo | .lwTimecmpHi | .lb _ | .lh _ | .lw _ => true
  | .tick => s.mayBeginTick
  | .clkSet t => s.mayRaiseClock t
  | .csrSet _ _ => true
  | .tWlo => match s.tick with
    | .wLo _ => true
    | .idle | .wHi _ | .eval _ => false
  | .tWhi => match s.tick with
    | .wHi _ => true
    | .idle | .wLo _ | .eval _ => false
  | .tEval => match s.tick with
    | .eval _ => true
    | .idle | .wLo _ | .wHi _ => false
  | .hZlo => decide (s.host = .zeroLo)
  | .hZhi => decide (s.host = .zeroHi)

/-- A step is enabled: its agent's phase allows it and no fatal error has occurred (R13, R114). -/
def State.enabled (s : State) (i : Instr) : Bool := s.fatal.isNone && s.ready i

end Sys2Proof.Machine
end

