-- ==== Sys2Proof/WellFormed.lean ====
section
/-! DEFINITION. Which terms of `Instr` are operations: the offsets of the named word forms belong to the named
constructors (spec/30_encoding.md R70, R74). -/

namespace Sys2Proof

/-- The four word offsets that have a word form of their own in R70. -/
def isNamedOffset (off : BitVec 8) : Bool :=
  off == offByte offTimeLo || off == offByte offTimeHi || off == offByte offCmpLo || off == offByte offCmpHi

/-- R74: the named word forms win over the general SW and LW rows, so a general word access is at no named offset. -/
def Instr.wellFormed : Instr → Bool
  | .sw off _ => !isNamedOffset off
  | .lw off   => !isNamedOffset off
  | .start | .play | .pause | .stop | .reset => true
  | .swTimecmpLo _ | .swTimecmpHi _ | .swTimeLo _ | .swTimeHi _ => true
  | .sb _ _ | .sh _ _ => true
  | .lwTimeLo | .lwTimeHi | .lwTimecmpLo | .lwTimecmpHi => true
  | .lb _ | .lh _ => true
  | .tick | .clkSet _ | .csrSet _ _ | .tWlo | .tWhi | .tEval | .hZlo | .hZhi => true

end Sys2Proof
end

