-- ==== Sys2Proof/Decode.lean ====
section
/-! DEFINITION. The decoder and the encoder of the operation words (spec/30_encoding.md R67 to R77), the opcode table
(spec/opcode_table.json, R74), and the byte-order helpers.

A trace is a row of bytes. Each 16-bit operation word and each operand stands low byte first, the operand after the word
(DESIGN CHOICE, log 2: the spec gives operation words no byte order). -/

namespace Sys2Proof

/-- The low `8n` bits of `v` as `n` bytes, least significant byte first (`BYTE_ORDER` little-endian, R49). -/
def leBytes {w : Nat} : Nat → BitVec w → List Byte
  | 0, _ => []
  | n + 1, v => v.setWidth 8 :: leBytes n (v >>> 8)

/-- The unsigned number whose bytes, least significant first, are the list's (R49). -/
def ofLeBytes (w : Nat) : List Byte → BitVec w
  | [] => 0#w
  | b :: bs => (ofLeBytes w bs <<< 8) ||| b.setWidth w

/-- Why a row of bytes is no operation (R75), by name. -/
inductive DecodeError where
  /-- The bytes end before the operation does. -/
  | incomplete
  /-- `cls` is 100 to 111 (R68, R75). -/
  | reservedClass
  /-- A CMD word with `op[12:3]` not zero (R69, R75). -/
  | commandBitsNotZero
  /-- A CMD word with `cmd` 101 to 111 (R69, R75). -/
  | reservedCommand
  /-- A BUSW or BUSR word with `op[10:8]` not zero (R70, R75). -/
  | busBitsNotZero
  /-- A BUSW or BUSR word with `size` = 11 (R70, R75). -/
  | reservedSize
  /-- A STEP word with `op[12:5]` not zero, or `op[4:3]` not zero for a code other than CSR_SET (R71, R75). -/
  | stepBitsNotZero
  deriving DecidableEq, Repr

/-- How many operand bytes follow an operation word (R68): four after a BUSW word, eight after a STEP word with code
CLK_SET, else none. R68 says so of the format and the code, so it holds of the reserved words among them too (DEDUCED,
log 15). -/
def operandBytes (op : OpWord) : Nat :=
  if op.extractLsb' 13 3 = 0b001#3 then 4
  else if op.extractLsb' 13 3 = 0b011#3 ∧ op.extractLsb' 0 3 = 0b001#3 then 8
  else 0

/-- The first operation's bytes and the bytes after it; its length is known from its first word (R68). -/
def splitOp : List Byte → Option (List Byte × List Byte)
  | b0 :: b1 :: bs =>
    let n := operandBytes (b1 ++ b0)
    if n ≤ bs.length then some (b0 :: b1 :: bs.take n, bs.drop n) else none
  | _ => none

/-- CMD format (R69). -/
def decodeCommand (op : OpWord) : Except DecodeError Instr :=
  if op.extractLsb' 3 10 ≠ 0#10 then .error .commandBitsNotZero
  else match op.extractLsb' 0 3 with
    | 0b000#3 => .ok .start
    | 0b001#3 => .ok .play
    | 0b010#3 => .ok .pause
    | 0b011#3 => .ok .stop
    | 0b100#3 => .ok .reset
    | _ => .error .reservedCommand

/-- A word store at an offset: a named form at the four named offsets, else the general row (R70, R74). -/
def storeWordForm (off : BitVec 8) (v : Word) : Instr :=
  if off = offByte offTimeLo then .swTimeLo v
  else if off = offByte offTimeHi then .swTimeHi v
  else if off = offByte offCmpLo then .swTimecmpLo v
  else if off = offByte offCmpHi then .swTimecmpHi v
  else .sw off v

/-- A word load at an offset: a named form at the four named offsets, else the general row (R70, R74). -/
def loadWordForm (off : BitVec 8) : Instr :=
  if off = offByte offTimeLo then .lwTimeLo
  else if off = offByte offTimeHi then .lwTimeHi
  else if off = offByte offCmpLo then .lwTimecmpLo
  else if off = offByte offCmpHi then .lwTimecmpHi
  else .lw off

/-- BUSW format (R70), with the data operand's low `8n` bits (R72). -/
def decodeStore (op : OpWord) (v : Word) : Except DecodeError Instr :=
  let off := op.extractLsb' 0 8
  if op.extractLsb' 8 3 ≠ 0#3 then .error .busBitsNotZero
  else match op.extractLsb' 11 2 with
    | 0b00#2 => .ok (.sb off (v.setWidth 8))
    | 0b01#2 => .ok (.sh off (v.setWidth 16))
    | 0b10#2 => .ok (storeWordForm off v)
    | _ => .error .reservedSize

/-- BUSR format (R70). -/
def decodeLoad (op : OpWord) : Except DecodeError Instr :=
  let off := op.extractLsb' 0 8
  if op.extractLsb' 8 3 ≠ 0#3 then .error .busBitsNotZero
  else match op.extractLsb' 11 2 with
    | 0b00#2 => .ok (.lb off)
    | 0b01#2 => .ok (.lh off)
    | 0b10#2 => .ok (loadWordForm off)
    | _ => .error .reservedSize

/-- STEP format (R71). -/
def decodeStep (op : OpWord) (t : Time) : Except DecodeError Instr :=
  if op.extractLsb' 5 8 ≠ 0#8 then .error .stepBitsNotZero
  else if op.extractLsb' 0 3 = 0b010#3 then .ok (.csrSet (op.getLsbD 4) (op.getLsbD 3))
  else if op.extractLsb' 3 2 ≠ 0#2 then .error .stepBitsNotZero
  else match op.extractLsb' 0 3 with
    | 0b000#3 => .ok .tick
    | 0b001#3 => .ok (.clkSet t)
    | 0b011#3 => .ok .tWlo
    | 0b100#3 => .ok .tWhi
    | 0b101#3 => .ok .tEval
    | 0b110#3 => .ok .hZlo
    | _ => .ok .hZhi

/-- An operation word with its operand bytes: field `cls` selects the format (R68). -/
def decodeWord (op : OpWord) (operand : List Byte) : Except DecodeError Instr :=
  match op.extractLsb' 13 3 with
  | 0b000#3 => decodeCommand op
  | 0b001#3 => decodeStore op (ofLeBytes 32 operand)
  | 0b010#3 => decodeLoad op
  | 0b011#3 => decodeStep op (ofLeBytes 64 operand)
  | _ => .error .reservedClass

/-- The bytes of one whole operation, as `splitOp` gives them. -/
def decodeOp : List Byte → Except DecodeError Instr
  | b0 :: b1 :: operand => decodeWord (b1 ++ b0) operand
  | _ => .error .incomplete

/-- The first operation of any row of bytes and the bytes after it, or why there is none. -/
def decode (bs : List Byte) : Except DecodeError (Instr × List Byte) :=
  match splitOp bs with
  | none => .error .incomplete
  | some (op, rest) =>
    match decodeOp op with
    | .ok i => .ok (i, rest)
    | .error e => .error e

/-! ### The encoder -/

/-- A BUSW or BUSR word: a class and a size, with an offset in `op[7:0]` (R70). -/
def busOp (classSize : OpWord) (off : BitVec 8) : OpWord := classSize ||| off.setWidth 16

/-- The operation word of an instruction, from the tables of R69, R70 and R71. -/
def opWord : Instr → OpWord
  | .start => 0x0000#16
  | .play => 0x0001#16
  | .pause => 0x0002#16
  | .stop => 0x0003#16
  | .reset => 0x0004#16
  | .swTimecmpLo _ => busOp 0x3000#16 (offByte offCmpLo)
  | .swTimecmpHi _ => busOp 0x3000#16 (offByte offCmpHi)
  | .swTimeLo _ => busOp 0x3000#16 (offByte offTimeLo)
  | .swTimeHi _ => busOp 0x3000#16 (offByte offTimeHi)
  | .sb off _ => busOp 0x2000#16 off
  | .sh off _ => busOp 0x2800#16 off
  | .sw off _ => busOp 0x3000#16 off
  | .lwTimeLo => busOp 0x5000#16 (offByte offTimeLo)
  | .lwTimeHi => busOp 0x5000#16 (offByte offTimeHi)
  | .lwTimecmpLo => busOp 0x5000#16 (offByte offCmpLo)
  | .lwTimecmpHi => busOp 0x5000#16 (offByte offCmpHi)
  | .lb off => busOp 0x4000#16 off
  | .lh off => busOp 0x4800#16 off
  | .lw off => busOp 0x5000#16 off
  | .tick => 0x6000#16
  | .clkSet _ => 0x6001#16
  | .csrSet tie gie =>
    0x6002#16 ||| (BitVec.ofBool tie).setWidth 16 <<< 4 ||| (BitVec.ofBool gie).setWidth 16 <<< 3
  | .tWlo => 0x6003#16
  | .tWhi => 0x6004#16
  | .tEval => 0x6005#16
  | .hZlo => 0x6006#16
  | .hZhi => 0x6007#16

/-- The operand bytes of an instruction (R68, R72). -/
def operandOf : Instr → List Byte
  | .swTimecmpLo w | .swTimecmpHi w | .swTimeLo w | .swTimeHi w => leBytes 4 w
  | .sb _ v => leBytes 4 (v.setWidth 32)
  | .sh _ v => leBytes 4 (v.setWidth 32)
  | .sw _ v => leBytes 4 v
  | .clkSet t => leBytes 8 t
  | .start | .play | .pause | .stop | .reset => []
  | .lwTimeLo | .lwTimeHi | .lwTimecmpLo | .lwTimecmpHi | .lb _ | .lh _ | .lw _ => []
  | .tick | .csrSet _ _ | .tWlo | .tWhi | .tEval | .hZlo | .hZhi => []

/-- The bytes of a well-formed instruction in a trace. -/
def encode (i : Instr) : List Byte := leBytes 2 (opWord i) ++ operandOf i

/-! ### The opcode table -/

/-- The mnemonic of an instruction's row in spec/opcode_table.json. -/
def Instr.mnemonic : Instr → String
  | .start => "START"
  | .play => "PLAY"
  | .pause => "PAUSE"
  | .stop => "STOP"
  | .reset => "RESET"
  | .swTimecmpLo _ => "SW_TIMECMP_LO"
  | .swTimecmpHi _ => "SW_TIMECMP_HI"
  | .swTimeLo _ => "SW_TIME_LO"
  | .swTimeHi _ => "SW_TIME_HI"
  | .sb _ _ => "SB"
  | .sh _ _ => "SH"
  | .sw _ _ => "SW"
  | .lwTimeLo => "LW_TIME_LO"
  | .lwTimeHi => "LW_TIME_HI"
  | .lwTimecmpLo => "LW_TIMECMP_LO"
  | .lwTimecmpHi => "LW_TIMECMP_HI"
  | .lb _ => "LB"
  | .lh _ => "LH"
  | .lw _ => "LW"
  | .tick => "TICK"
  | .clkSet _ => "CLK_SET"
  | .csrSet _ _ => "CSR_SET"
  | .tWlo => "T_WLO"
  | .tWhi => "T_WHI"
  | .tEval => "T_EVAL"
  | .hZlo => "H_ZLO"
  | .hZhi => "H_ZHI"

/-- A row of the opcode table: a word `op` matches it when `op &&& mask = pattern`. -/
structure OpRow where
  mnemonic : String
  pattern  : OpWord
  mask     : OpWord
  deriving DecidableEq, Repr

/-- The rows of spec/opcode_table.json, in its order; a named word form's pattern holds the offset it names. -/
def opcodeTable : List OpRow :=
  [⟨"START", 0x0000#16, 0xFFFF#16⟩, ⟨"PLAY", 0x0001#16, 0xFFFF#16⟩, ⟨"PAUSE", 0x0002#16, 0xFFFF#16⟩,
   ⟨"STOP", 0x0003#16, 0xFFFF#16⟩, ⟨"RESET", 0x0004#16, 0xFFFF#16⟩] ++
  [⟨"SW_TIMECMP_LO", busOp 0x3000#16 (offByte offCmpLo), 0xFFFF#16⟩,
   ⟨"SW_TIMECMP_HI", busOp 0x3000#16 (offByte offCmpHi), 0xFFFF#16⟩,
   ⟨"SW_TIME_LO", busOp 0x3000#16 (offByte offTimeLo), 0xFFFF#16⟩,
   ⟨"SW_TIME_HI", busOp 0x3000#16 (offByte offTimeHi), 0xFFFF#16⟩,
   ⟨"SB", 0x2000#16, 0xFF00#16⟩, ⟨"SH", 0x2800#16, 0xFF00#16⟩, ⟨"SW", 0x3000#16, 0xFF00#16⟩] ++
  [⟨"LW_TIME_LO", busOp 0x5000#16 (offByte offTimeLo), 0xFFFF#16⟩,
   ⟨"LW_TIME_HI", busOp 0x5000#16 (offByte offTimeHi), 0xFFFF#16⟩,
   ⟨"LW_TIMECMP_LO", busOp 0x5000#16 (offByte offCmpLo), 0xFFFF#16⟩,
   ⟨"LW_TIMECMP_HI", busOp 0x5000#16 (offByte offCmpHi), 0xFFFF#16⟩,
   ⟨"LB", 0x4000#16, 0xFF00#16⟩, ⟨"LH", 0x4800#16, 0xFF00#16⟩, ⟨"LW", 0x5000#16, 0xFF00#16⟩] ++
  [⟨"TICK", 0x6000#16, 0xFFFF#16⟩, ⟨"CLK_SET", 0x6001#16, 0xFFFF#16⟩, ⟨"CSR_SET", 0x6002#16, 0xFFE7#16⟩,
   ⟨"T_WLO", 0x6003#16, 0xFFFF#16⟩, ⟨"T_WHI", 0x6004#16, 0xFFFF#16⟩, ⟨"T_EVAL", 0x6005#16, 0xFFFF#16⟩,
   ⟨"H_ZLO", 0x6006#16, 0xFFFF#16⟩, ⟨"H_ZHI", 0x6007#16, 0xFFFF#16⟩]

/-- Whether a word matches a row. -/
def OpRow.matches (r : OpRow) (op : OpWord) : Bool := op &&& r.mask == r.pattern

/-- How many bits a row's mask sets, the measure of R74. -/
def OpRow.weight (r : OpRow) : Nat := (List.range 16).countP (fun k => r.mask.getLsbD k)

/-- R74: of the rows that match a word, the one with most bits set in its mask (`none` where no row matches). -/
def bestRow (op : OpWord) : Option OpRow :=
  (opcodeTable.filter (fun r => r.matches op)).foldl
    (fun best r =>
      match best with
      | none => some r
      | some b => if b.weight < r.weight then some r else some b) none

/-! ### A table row's word in the host's numbering -/

/-- The bytes of the operation whose bits are `w`, bit 0 the least significant bit of the first word; every bit from
`nbits` up is zero. -/
def tableBytes (nbits w : Nat) : List Byte :=
  let v : BitVec 80 := BitVec.ofNat 80 (w % 2 ^ nbits)
  leBytes (2 + operandBytes (v.setWidth 16)) v

/-- What the decoder reads from that operation. -/
def decodeTableWord (nbits w : Nat) : Option Instr :=
  match decode (tableBytes nbits w) with
  | .ok (i, _) => some i
  | .error _ => none

end Sys2Proof
end

