-- ==== Sys2Proof/Machine/Operands.lean ====
section
/-! DEFINITION. Addresses and operand assembly: the register map (spec/20_memory.md R48), the ranges a store is checked
against (spec/42_compare_watcher.md R94), the compare value's halves and the time's halves (spec/30_encoding.md R77, R78). -/

namespace Sys2Proof

/-- The byte address `BASE + off`. Addresses are natural numbers: the window does not wrap (R47), and an access past the
end of the address space is at no address of the memory (log 7). -/
def Config.addr (c : Config) (off : Nat) : Nat := c.base.toNat + off

/-- `MEM_VALID(a)`: byte address `a` is inside the memory region (R6, R52); no address past the address space is. -/
def Config.memValid (c : Config) (a : Nat) : Bool :=
  decide (a < addrSpace) && c.valid.any (fun r => decide (r.base ≤ a ∧ a < r.base + r.size))

/-- The first byte of `a .. a + n - 1` that is not MEM_VALID, in increasing address order (R52, R115). -/
def Config.firstInvalid (c : Config) (a : Nat) : Nat → Option Nat
  | 0 => none
  | n + 1 => if c.memValid a then c.firstInvalid (a + 1) n else some a

end Sys2Proof

namespace Sys2Proof.Machine

/-- The bytes `off .. off + n - 1` meet TIME_LO or TIME_HI, `+0x18 .. +0x1F` (R94, R100). -/
def touchesTime (off n : Nat) : Bool := decide (off < offTimeHi + wordBytes ∧ offTimeLo < off + n)

/-- The bytes `off .. off + n - 1` meet the compare range, `+0x20 .. +0x27` (R94, R99). -/
def touchesCompare (off n : Nat) : Bool := decide (off < offCmpLo + cmpRangeBytes ∧ offCmpLo < off + n)

/-- R77, store at `BASE+0x20`: the low half replaced, the high half kept. -/
def setLowHalf (c : Time) (w : Word) : Time := (c &&& 0xFFFFFFFF00000000#64) ||| w.setWidth 64

/-- R77, store at `BASE+0x24`: the high half replaced, the low half kept. -/
def setHighHalf (c : Time) (w : Word) : Time := (c &&& 0x00000000FFFFFFFF#64) ||| (w.setWidth 64 <<< 32)

/-- R78: what TIME_LO receives of a time `t`. -/
def lowHalf (t : Time) : Word := t.extractLsb' 0 32

/-- R78: what TIME_HI receives of a time `t`. -/
def highHalf (t : Time) : Word := t.extractLsb' 32 32

/-- R78: the time software reconstructs from a consistent pair of TIME words. -/
def joinHalves (hi lo : Word) : Time := (hi.setWidth 64 <<< 32) ||| lo.setWidth 64

/-- The kind of a memory access, as the memory reports it (R57). -/
inductive AccessKind where
  | read
  | write
  deriving DecidableEq, Repr

/-- A notification on the block's write-notification port (R57). -/
structure Notification where
  kind  : AccessKind
  addr  : Nat
  size  : Nat
  value : Word
  deriving DecidableEq, Repr

end Sys2Proof.Machine
end

