-- ==== Sys2Proof/Machine/Ops.lean ====
section
/-! DEFINITION. The named operations the meanings share: memory (spec/20_memory.md), the MMIO Bridge (R52), the fatal
configuration error (spec/60_exceptions.md R114), the Watcher (spec/42_compare_watcher.md), delivery (spec/43_tick.md R111). -/

namespace Sys2Proof.Machine

/-! ### Memory -/

/-- What an address that the memory does not list reads as. The reset contents are `MEM_INIT`, which the spec leaves open
(R43, D8); zero is the model's choice (DESIGN CHOICE, log 6). -/
def Memory.unlisted : Byte := 0#8

/-- The byte at an address. -/
def Memory.read : Memory → Nat → Byte
  | [], _ => Memory.unlisted
  | (k, v) :: m, a => if k = a then v else Memory.read m a

/-- One byte stored, the canonical form kept: addresses rising, no entry equal to what an unlisted address reads as. -/
def Memory.write : Memory → Nat → Byte → Memory
  | [], a, v => if v = Memory.unlisted then [] else [(a, v)]
  | (k, w) :: m, a, v =>
    if a < k then (if v = Memory.unlisted then (k, w) :: m else (a, v) :: (k, w) :: m)
    else if a = k then (if v = Memory.unlisted then m else (a, v) :: m)
    else (k, w) :: Memory.write m a v

/-- The canonical form from address `lo` up: addresses strictly rising and inside the address space, no entry equal to
what an unlisted address reads as. -/
def Memory.wfFrom : Nat → Memory → Bool
  | _, [] => true
  | lo, (k, v) :: m => decide (lo ≤ k ∧ k < addrSpace) && decide (v ≠ Memory.unlisted) && Memory.wfFrom (k + 1) m

/-- The canonical form of a memory. -/
def Memory.wf (m : Memory) : Bool := Memory.wfFrom 0 m

/-- `MemRead`'s bytes: `n` bytes from address `a` up. -/
def Memory.readBytes (m : Memory) (a : Nat) : Nat → List Byte
  | 0 => []
  | n + 1 => m.read a :: m.readBytes (a + 1) n

/-- `MemWrite`'s bytes: the list stored from address `a` up. -/
def Memory.writeBytes (m : Memory) (a : Nat) : List Byte → Memory
  | [] => m
  | b :: bs => Memory.writeBytes (m.write a b) (a + 1) bs

/-- The 32-bit word at an address, in `BYTE_ORDER` (R49). -/
def Memory.readWord (m : Memory) (a : Nat) : Word := ofLeBytes 32 (m.readBytes a 4)

/-- The free bytes number `d` to `d + n - 1` (log 7). -/
def freeBytes (d : Nat) : Nat → List Byte
  | 0 => []
  | n + 1 => Config.freeByte d :: freeBytes (d + 1) n

/-- A store of which some byte is outside the memory region (log 7): each of its bytes inside the region takes a free
value, and the others have no cell. -/
def Memory.scramble (c : Config) (m : Memory) (a : Nat) : List Byte → Memory
  | [] => m
  | b :: bs => Memory.scramble c (if c.memValid a then m.write a b else m) (a + 1) bs

/-! ### Outcomes of a step -/

/-- A step of any agent: none after a fatal error (R114, R13), else to the state given. -/
def State.act (s t : State) : Host.Outcome State Fault Refusal :=
  match s.fatal with
  | some a => .fault (.fatalConfiguration a)
  | none => .next t

/-- R13, R35: the operation is given no meaning; the mark is set and nothing else changes. -/
def State.refuse (s : State) : State := { s with refused := true }

/-- R114: FatalConfigurationError at `a`; no other field changes. -/
def State.raiseFatal (s : State) (a : Nat) : State := { s with fatal := some a }

/-- R111: one timer interrupt event passed to the sink; the block keeps no record, the list is the observation (D29). -/
def State.deliver (s : State) (code : Nat) : State := { s with delivered := s.delivered ++ [code] }

/-! ### The MMIO Bridge -/

/-- R52, `WriteWord(a, v)` and then `done`: the four bytes are checked in increasing order; the first invalid one is fatal
and nothing is written. -/
def State.writeWord (s : State) (a : Nat) (v : Word) (done : State → State) : State :=
  match s.cfg.firstInvalid a wordBytes with
  | some b => s.raiseFatal b
  | none => done { s with mem := s.mem.writeBytes a (leBytes wordBytes v) }

/-! ### The Watcher -/

/-- R77 with R95 and R96: a write notification the Watcher acts on. -/
def State.watch (s : State) (n : Notification) : State :=
  if n.kind = .write ∧ n.size = wordBytes then
    if n.addr = s.cfg.addr offCmpLo then { s with cmpValue := setLowHalf s.cmpValue n.value, armed := true }
    else if n.addr = s.cfg.addr offCmpHi then { s with cmpValue := setHighHalf s.cmpValue n.value, armed := true }
    else s
  else s

/-- R57: once the Watcher exists the memory reports to it, in the same step, every access whose address lies in the
compare range; before that nothing is reported (R98). -/
def State.notify (s : State) (n : Notification) : State :=
  if s.watcherOn ∧ s.cfg.addr offCmpLo ≤ n.addr ∧ n.addr < s.cfg.addr offCmpLo + cmpRangeBytes then s.watch n else s

/-! ### Software accesses -/

/-- `MemWrite(a, n, v)` by software (R94, R95, R96): the memory keeps the `n` low bytes of `v`. Where a byte is outside the
memory region the memory's own handling is outside the block: free values (log 7). -/
def State.memStore (s : State) (a n : Nat) (v : Word) : State :=
  match s.cfg.firstInvalid a n with
  | none => { s with mem := s.mem.writeBytes a (leBytes n v) }
  | some _ => { s with mem := s.mem.scramble s.cfg a (freeBytes s.draws n), draws := s.draws + n }

/-- R95 and R96: a word store to a compare half, the memory write and the notification in one step. -/
def State.storeCompare (s : State) (off : Nat) (w : Word) : State :=
  (s.memStore (s.cfg.addr off) wordBytes w).notify ⟨.write, s.cfg.addr off, wordBytes, w⟩

/-- R94: a general store of the `n` low bytes of `v` at `BASE + off`. -/
def State.store (s : State) (off n : Nat) (v : Word) : State :=
  if touchesTime off n then s.refuse
  else if touchesCompare off n then
    if n = wordBytes ∧ off = offCmpLo then s.storeCompare offCmpLo v
    else if n = wordBytes ∧ off = offCmpHi then s.storeCompare offCmpHi v
    else s.refuse
  else s.memStore (s.cfg.addr off) n v

/-- The `n` bytes that the memory answers a load at `a` with: their value is returned to the Bus, and the access is
reported with that value (R57, R97). -/
def State.returnLoad (s : State) (a n : Nat) (bs : List Byte) : State :=
  let v := ofLeBytes 32 bs
  State.notify { s with loaded := s.loaded ++ [v] } ⟨.read, a, n, v⟩

/-- R97: a load of `n` bytes at `BASE + off`: the memory answers with an unsigned number (R10, R50), the block ignores the
read (R55). A load of which some byte is outside the memory region returns a free value (log 7). -/
def State.load (s : State) (off n : Nat) : State :=
  let a := s.cfg.addr off
  match s.cfg.firstInvalid a n with
  | none => s.returnLoad a n (s.mem.readBytes a n)
  | some _ => State.returnLoad { s with draws := s.draws + n } a n (freeBytes s.draws n)

/-! ### The accumulator -/

/-- R87 and R88: the accumulator zeroed, the sync point re-anchored to now, the two zero writes begun. -/
def State.zeroTime (s : State) : State := { s with elapsed := 0#64, sync := some s.clk, host := .zeroLo }

end Sys2Proof.Machine
end

