-- ==== Sys2Proof/Machine/Bus.lean ====
section
/-! DEFINITION. The software accesses of the Bus agent (spec/42_compare_watcher.md): stores R94, R95, R96, R99, R100 and
loads R97. -/

namespace Sys2Proof.Machine

/-- SW_TIMECMP_LO (R95). -/
def execSwTimecmpLo (w : Word) (s : State) : Host.Outcome State Fault Refusal := s.act (s.storeCompare offCmpLo w)

/-- SW_TIMECMP_HI (R96). -/
def execSwTimecmpHi (w : Word) (s : State) : Host.Outcome State Fault Refusal := s.act (s.storeCompare offCmpHi w)

/-- SW_TIME_LO (R100): refused, whatever the value. -/
def execSwTimeLo (w : Word) (s : State) : Host.Outcome State Fault Refusal := s.act (s.store offTimeLo wordBytes w)

/-- SW_TIME_HI (R100): refused, whatever the value. -/
def execSwTimeHi (w : Word) (s : State) : Host.Outcome State Fault Refusal := s.act (s.store offTimeHi wordBytes w)

/-- SB (R94, R72). -/
def execSb (off : BitVec 8) (v : BitVec 8) (s : State) : Host.Outcome State Fault Refusal :=
  s.act (s.store off.toNat 1 (v.setWidth 32))

/-- SH (R94, R72). -/
def execSh (off : BitVec 8) (v : BitVec 16) (s : State) : Host.Outcome State Fault Refusal :=
  s.act (s.store off.toNat 2 (v.setWidth 32))

/-- SW (R94). -/
def execSw (off : BitVec 8) (v : Word) (s : State) : Host.Outcome State Fault Refusal := s.act (s.store off.toNat 4 v)

/-- LW_TIME_LO (R97). -/
def execLwTimeLo (s : State) : Host.Outcome State Fault Refusal := s.act (s.load offTimeLo wordBytes)

/-- LW_TIME_HI (R97). -/
def execLwTimeHi (s : State) : Host.Outcome State Fault Refusal := s.act (s.load offTimeHi wordBytes)

/-- LW_TIMECMP_LO (R97). -/
def execLwTimecmpLo (s : State) : Host.Outcome State Fault Refusal := s.act (s.load offCmpLo wordBytes)

/-- LW_TIMECMP_HI (R97). -/
def execLwTimecmpHi (s : State) : Host.Outcome State Fault Refusal := s.act (s.load offCmpHi wordBytes)

/-- LB (R97). -/
def execLb (off : BitVec 8) (s : State) : Host.Outcome State Fault Refusal := s.act (s.load off.toNat 1)

/-- LH (R97). -/
def execLh (off : BitVec 8) (s : State) : Host.Outcome State Fault Refusal := s.act (s.load off.toNat 2)

/-- LW (R97). -/
def execLw (off : BitVec 8) (s : State) : Host.Outcome State Fault Refusal := s.act (s.load off.toNat 4)

end Sys2Proof.Machine
end

