-- ==== Sys2Proof/Machine/Env.lean ====
section
/-! DEFINITION. The steps of the Env agent: the clock (spec/00_scope.md R14) and the enable inputs (R15). -/

namespace Sys2Proof.Machine

/-- CLK_SET (R14, R71): the clock is never lowered; a lower value is not an enabled step and waits. -/
def execClkSet (t : Time) (s : State) : Host.Outcome State Fault Refusal :=
  s.act (if s.mayRaiseClock t then { s with clk := t } else s)

/-- CSR_SET (R15, R71). -/
def execCsrSet (tie gie : Bool) (s : State) : Host.Outcome State Fault Refusal :=
  s.act { s with tie := tie, gie := gie }

end Sys2Proof.Machine
end

