-- ==== Sys2Proof/Machine/Lifecycle.lean ====
section
/-! DEFINITION. The lifecycle commands and the zero-write steps of the Host agent (spec/41_lifecycle.md). A command that
is not accepted waits: the state is unchanged and the operation stays pending (R83, R13, log 1). -/

namespace Sys2Proof.Machine

/-- R84: what the START command does when accepted. -/
def State.startCommand (s : State) : State :=
  if s.started then s
  else if s.watcherOn then { s with started := true }
  else match s.cfg.firstInvalid (s.cfg.addr offCmpLo) cmpRangeBytes with
    | some a => s.raiseFatal a
    | none => { s with watcherOn := true, started := true }

/-- START (R84, R83). -/
def execStart (s : State) : Host.Outcome State Fault Refusal :=
  s.act (if s.acceptsCommand then s.startCommand else s)

/-- PLAY (R85, R83). -/
def execPlay (s : State) : Host.Outcome State Fault Refusal :=
  s.act (if s.acceptsCommand && s.started && !s.playing then { s with sync := some s.clk, playing := true } else s)

/-- PAUSE (R86, R83): the running interval is folded into the accumulator. -/
def execPause (s : State) : Host.Outcome State Fault Refusal :=
  s.act (if s.acceptsCommand && s.playing then
    { s with elapsed := s.elapsed + (s.clk - s.syncPoint), playing := false } else s)

/-- STOP (R88, R83). -/
def execStop (s : State) : Host.Outcome State Fault Refusal :=
  s.act (if s.acceptsCommand then { s.zeroTime with playing := false, started := false } else s)

/-- RESET (R87, R83). -/
def execReset (s : State) : Host.Outcome State Fault Refusal :=
  s.act (if s.acceptsCommand then s.zeroTime else s)

/-- H_ZLO, the zero write of TIME_LO (R90). -/
def execHZlo (s : State) : Host.Outcome State Fault Refusal :=
  s.act (if s.host = .zeroLo then
    s.writeWord (s.cfg.addr offTimeLo) 0#32 (fun t => { t with host := .zeroHi }) else s)

/-- H_ZHI, the zero write of TIME_HI (R91). -/
def execHZhi (s : State) : Host.Outcome State Fault Refusal :=
  s.act (if s.host = .zeroHi then
    s.writeWord (s.cfg.addr offTimeHi) 0#32 (fun t => { t with host := .ready }) else s)

end Sys2Proof.Machine
end

