-- ==== Sys2Proof/Machine/Tick.lean ====
section
/-! DEFINITION. The four sub-steps of a tick (spec/43_tick.md R103 to R107). A sub-step that is not enabled waits: the
state is unchanged (R13, R71, log 1). -/

namespace Sys2Proof.Machine

/-- TICK, sub-step T1 (R103, R104): the time is sampled while playing; a paused tick is empty. -/
def execTick (s : State) : Host.Outcome State Fault Refusal :=
  s.act (if s.mayBeginTick then
    { s with tick := if s.playing then .wLo (s.reportedTime s.clk) else .idle } else s)

/-- T_WLO, sub-step T2 (R105). -/
def execTWlo (s : State) : Host.Outcome State Fault Refusal :=
  s.act (match s.tick with
    | .wLo t => s.writeWord (s.cfg.addr offTimeLo) (lowHalf t) (fun r => { r with tick := .wHi t })
    | .idle | .wHi _ | .eval _ => s)

/-- T_WHI, sub-step T3 (R106). -/
def execTWhi (s : State) : Host.Outcome State Fault Refusal :=
  s.act (match s.tick with
    | .wHi t => s.writeWord (s.cfg.addr offTimeHi) (highHalf t) (fun r => { r with tick := .eval t })
    | .idle | .wLo _ | .eval _ => s)

/-- R107: the test and clear of the latch and the delivery, for the sampled time `t`. -/
def State.evaluateTick (s : State) (t : Time) : State :=
  if evaluate t s.cmpValue s.armed s.tie s.gie then
    { s.deliver s.cfg.irqCode with armed := false, tick := .idle }
  else { s with tick := .idle }

/-- T_EVAL, sub-step T4 (R107). -/
def execTEval (s : State) : Host.Outcome State Fault Refusal :=
  s.act (match s.tick with
    | .eval t => s.evaluateTick t
    | .idle | .wLo _ | .wHi _ => s)

end Sys2Proof.Machine
end

