-- ==== Sys2Proof/Machine/Dispatch.lean ====
section
/-! DEFINITION. One arm per operation. -/

namespace Sys2Proof.Machine

def exec (i : Instr) (s : State) : Host.Outcome State Fault Refusal :=
  match i with
  | .start => Sys2Proof.Machine.execStart s
  | .play => Sys2Proof.Machine.execPlay s
  | .pause => Sys2Proof.Machine.execPause s
  | .stop => Sys2Proof.Machine.execStop s
  | .reset => Sys2Proof.Machine.execReset s
  | .swTimecmpLo w => Sys2Proof.Machine.execSwTimecmpLo w s
  | .swTimecmpHi w => Sys2Proof.Machine.execSwTimecmpHi w s
  | .swTimeLo w => Sys2Proof.Machine.execSwTimeLo w s
  | .swTimeHi w => Sys2Proof.Machine.execSwTimeHi w s
  | .sb off v => Sys2Proof.Machine.execSb off v s
  | .sh off v => Sys2Proof.Machine.execSh off v s
  | .sw off v => Sys2Proof.Machine.execSw off v s
  | .lwTimeLo => Sys2Proof.Machine.execLwTimeLo s
  | .lwTimeHi => Sys2Proof.Machine.execLwTimeHi s
  | .lwTimecmpLo => Sys2Proof.Machine.execLwTimecmpLo s
  | .lwTimecmpHi => Sys2Proof.Machine.execLwTimecmpHi s
  | .lb off => Sys2Proof.Machine.execLb off s
  | .lh off => Sys2Proof.Machine.execLh off s
  | .lw off => Sys2Proof.Machine.execLw off s
  | .tick => Sys2Proof.Machine.execTick s
  | .clkSet t => Sys2Proof.Machine.execClkSet t s
  | .csrSet tie gie => Sys2Proof.Machine.execCsrSet tie gie s
  | .tWlo => Sys2Proof.Machine.execTWlo s
  | .tWhi => Sys2Proof.Machine.execTWhi s
  | .tEval => Sys2Proof.Machine.execTEval s
  | .hZlo => Sys2Proof.Machine.execHZlo s
  | .hZhi => Sys2Proof.Machine.execHZhi s

end Sys2Proof.Machine
end

