-- ==== Sys2Proof/Machine/Fetch.lean ====
section
/-! DEFINITION. Which pending operation is taken next. An operation whose agent's step is not enabled waits in the trace
until another agent's step enables it (spec/00_scope.md R13, spec/41_lifecycle.md R83); the operations behind it are
served meanwhile (DEDUCED, log 1). -/

namespace Sys2Proof.Machine

/-- An operation of the trace is taken now: it decodes to an instruction that is ready, or it is a reserved word, which is
refused (R75). -/
def State.accepts (s : State) (op : List Byte) : Bool :=
  match decodeOp op with
  | .ok i => s.ready i
  | .error _ => true

/-- The first operation of `bs` that is taken now, and `bs` without it; `fuel` bounds how many operations are looked at.
DESIGN CHOICE (log 1): where the bytes end inside an operation (one byte, or a word with fewer operand bytes than R68
gives it, be the word reserved or not), those last bytes are no operation yet: they are neither run nor refused nor
dropped, and stay pending. The spec has no rows of bytes and says nothing of it. -/
def State.pick (s : State) : Nat → List Byte → Option (List Byte × List Byte)
  | 0, _ => none
  | fuel + 1, bs =>
    match splitOp bs with
    | none => none
    | some (op, rest) =>
      if s.accepts op then some (op, rest)
      else match s.pick fuel rest with
        | none => none
        | some (chosen, others) => some (chosen, op ++ others)

/-- The next operation and the state with it taken out of the trace; none where every pending operation waits. -/
def State.fetch (s : State) : Option (List Byte × State) :=
  match s.pick s.trace.length s.trace with
  | none => none
  | some (op, rest) => some (op, { s with trace := rest })

end Sys2Proof.Machine
end

