-- ==== Sys2Proof/Machine/Step.lean ====
section
/-! DEFINITION. One step of the machine: the next enabled operation of the trace is taken, atomically (spec/00_scope.md
R12, R13). -/

namespace Sys2Proof.Machine

/-- One fetched operation: an instruction runs, a reserved word is refused (R75). -/
def State.run (op : List Byte) (s : State) : Host.Outcome State Fault Refusal :=
  match decodeOp op with
  | .ok i => exec i s
  | .error _ => s.act s.refuse

/-- One step. A machine whose BASE breaks R47 is refused before its first step; after a fatal error no agent steps
(R114); where no pending operation is enabled the machine holds (R13). -/
def step (s : State) : Host.Outcome State Fault Refusal :=
  if s.cfg.ok then
    match s.fatal with
    | some a => .fault (.fatalConfiguration a)
    | none =>
      match s.fetch with
      | none => .next s
      | some (op, t) => State.run op t
  else .refused .badConfiguration

/-- The state whose pending operation is the one with bits `w` (bit 0 the least significant bit of the first word), and no
other: a program is the trace loaded from outside (log 1). -/
def State.withFetchWord (s : State) (nbits w : Nat) : State := { s with trace := tableBytes nbits w }

end Sys2Proof.Machine
end

