-- ==== Sys2Proof/Machine/Assembler.lean ====
section
/-! DEFINITION. The trace language and its pseudo-steps (spec/30_encoding.md R79 to R81), as abstract lines: what
operations each line stands for in a state, and how it is written. -/

namespace Sys2Proof.Machine

/-- `OFF` of R79: a number or the name of a window register. -/
inductive AsmOffset where
  | num (off : BitVec 8)
  | timeLo
  | timeHi
  | timecmpLo
  | timecmpHi
  deriving DecidableEq, Repr

/-- The byte offset from BASE that an `OFF` stands for (R79). -/
def AsmOffset.value : AsmOffset → BitVec 8
  | .num off => off
  | .timeLo => offByte offTimeLo
  | .timeHi => offByte offTimeHi
  | .timecmpLo => offByte offCmpLo
  | .timecmpHi => offByte offCmpHi

/-- A line of a trace: a step of R79 or a pseudo-step of R81. -/
inductive Line where
  /-- `start.cmd`. -/
  | startCmd
  /-- `start`, another spelling of `start.cmd` (R79). -/
  | start
  | play
  | pause
  /-- `stop.cmd`: the STOP command step alone. -/
  | stopCmd
  /-- `reset.cmd`: the RESET command step alone. -/
  | resetCmd
  | sb (off : AsmOffset) (v : Word)
  | sh (off : AsmOffset) (v : Word)
  | sw (off : AsmOffset) (v : Word)
  | lb (off : AsmOffset)
  | lh (off : AsmOffset)
  | lw (off : AsmOffset)
  /-- `tick.sample`, `tick.wlo`, `tick.whi`, `tick.eval`: tick sub-steps T1 to T4. -/
  | tickSample
  | tickWlo
  | tickWhi
  | tickEval
  | zlo
  | zhi
  /-- `@clk T`. -/
  | clk (t : Time)
  /-- `@csr tie=B gie=B`. -/
  | csr (tie gie : Bool)
  /-- `reset`: the whole RESET with nothing between its steps (R81). -/
  | reset
  /-- `stop`: the whole STOP (R81). -/
  | stop
  /-- `tick`: a whole tick with nothing between its sub-steps (R81). -/
  | tick
  /-- `tick N` (R81). -/
  | ticks (n : Nat)
  /-- `setcmp V`: high half first (R81). -/
  | setcmp (v : Time)
  /-- `setcmp.masked V`: the hazard-free sequence of R135 (R81). -/
  | setcmpMasked (v : Time)
  /-- `restart` (R81). -/
  | restart
  /-- `@advance D` (R81). -/
  | advance (d : Time)
  deriving DecidableEq, Repr

/-- The operations of one whole tick in state `s` (R81). -/
def tickSteps (s : State) : List Instr :=
  if s.playing then [.tick, .tWlo, .tWhi, .tEval] else [.tick]

/-- The operations a line stands for, in the state it is reached in (R79, R81). -/
def Line.expand (s : State) : Line → List Instr
  | .startCmd | .start => [.start]
  | .play => [.play]
  | .pause => [.pause]
  | .stopCmd => [.stop]
  | .resetCmd => [.reset]
  | .sb off v => [.sb off.value (v.setWidth 8)]
  | .sh off v => [.sh off.value (v.setWidth 16)]
  | .sw off v => [storeWordForm off.value v]
  | .lb off => [.lb off.value]
  | .lh off => [.lh off.value]
  | .lw off => [loadWordForm off.value]
  | .tickSample => [.tick]
  | .tickWlo => [.tWlo]
  | .tickWhi => [.tWhi]
  | .tickEval => [.tEval]
  | .zlo => [.hZlo]
  | .zhi => [.hZhi]
  | .clk t => [.clkSet t]
  | .csr tie gie => [.csrSet tie gie]
  | .reset => [.reset, .hZlo, .hZhi]
  | .stop => [.stop, .hZlo, .hZhi]
  | .tick => tickSteps s
  | .ticks n => (List.replicate n (tickSteps s)).flatten
  | .setcmp v => [.swTimecmpHi (highHalf v), .swTimecmpLo (lowHalf v)]
  | .setcmpMasked v =>
    [.csrSet false s.gie, .swTimecmpHi (highHalf v), .swTimecmpLo (lowHalf v), .csrSet true s.gie]
  | .restart => [.stop, .hZlo, .hZhi, .start]
  | .advance d => [.clkSet (s.clk + d)]

/-! ### The spelling of lines (R79, R81) -/

/-- An `OFF` as it is written: a number, or the name of a window register. -/
def AsmOffset.text : AsmOffset → String
  | .num off => Nat.repr off.toNat
  | .timeLo => "TIME_LO"
  | .timeHi => "TIME_HI"
  | .timecmpLo => "TIMECMP_LO"
  | .timecmpHi => "TIMECMP_HI"

/-- A Boolean of an `@csr` line. -/
def bitText (b : Bool) : String := if b then "1" else "0"

/-- A line as it is written in a trace, its numbers in decimal (R79, R81). -/
def Line.text : Line → String
  | .startCmd => "start.cmd"
  | .start => "start"
  | .play => "play"
  | .pause => "pause"
  | .stopCmd => "stop.cmd"
  | .resetCmd => "reset.cmd"
  | .sb off v => "sb " ++ off.text ++ ", " ++ Nat.repr v.toNat
  | .sh off v => "sh " ++ off.text ++ ", " ++ Nat.repr v.toNat
  | .sw off v => "sw " ++ off.text ++ ", " ++ Nat.repr v.toNat
  | .lb off => "lb " ++ off.text
  | .lh off => "lh " ++ off.text
  | .lw off => "lw " ++ off.text
  | .tickSample => "tick.sample"
  | .tickWlo => "tick.wlo"
  | .tickWhi => "tick.whi"
  | .tickEval => "tick.eval"
  | .zlo => "zlo"
  | .zhi => "zhi"
  | .clk t => "@clk " ++ Nat.repr t.toNat
  | .csr tie gie => "@csr tie=" ++ bitText tie ++ " gie=" ++ bitText gie
  | .reset => "reset"
  | .stop => "stop"
  | .tick => "tick"
  | .ticks n => "tick " ++ Nat.repr n
  | .setcmp v => "setcmp " ++ Nat.repr v.toNat
  | .setcmpMasked v => "setcmp.masked " ++ Nat.repr v.toNat
  | .restart => "restart"
  | .advance d => "@advance " ++ Nat.repr d.toNat

end Sys2Proof.Machine
end

