-- ==== Sys2Proof/Safety.lean ====
section
/-! DEFINITION. The terms in which claims are made: a safe state, a run of operations, an infinite fair run, the bytes an
operation stores, and the invariants of the machine. -/

namespace Sys2Proof.Machine

/-- A state of a run about which the spec's rules speak: no fatal error (R114) and no operation without a meaning has
occurred (R13, R35). -/
def State.Safe (s : State) : Prop := s.fatal = none ∧ s.refused = false

/-- The operations of a list taken one after another. -/
def runOps : List Instr → State → Host.Outcome State Fault Refusal
  | [], s => .next s
  | i :: is, s =>
    match exec i s with
    | .next t => runOps is t
    | .fault r => .fault r
    | .refused r => .refused r

/-- An infinite run of the block (R11, R71, D29): at every moment an enabled step is taken. -/
structure Run (st : Nat → State) (op : Nat → Instr) : Prop where
  enabled : ∀ k, (st k).enabled (op k) = true
  steps   : ∀ k, exec (op k) (st k) = .next (st (k + 1))

/-- The steps that weak fairness is assumed for (R112). -/
def fairSteps : List Instr := [.tick, .tWlo, .tWhi, .tEval, .hZlo, .hZhi]

/-- R112: a step of the Tick agent or a zero write that stays enabled is eventually taken. -/
def FairRun (st : Nat → State) (op : Nat → Instr) : Prop :=
  ∀ i ∈ fairSteps, ∀ n, (∀ m, n ≤ m → (st m).enabled i = true) → ∃ m, n ≤ m ∧ op m = i

/-- A store the Watcher acts on once it exists: a word store to a compare half (R95, R96). -/
def isCompareStore : Instr → Bool
  | .swTimecmpLo _ | .swTimecmpHi _ => true
  | .sw off _ => off == offByte offCmpLo || off == offByte offCmpHi
  | .start | .play | .pause | .stop | .reset => false
  | .swTimeLo _ | .swTimeHi _ | .sb _ _ | .sh _ _ => false
  | .lwTimeLo | .lwTimeHi | .lwTimecmpLo | .lwTimecmpHi | .lb _ | .lh _ | .lw _ => false
  | .tick | .clkSet _ | .csrSet _ _ | .tWlo | .tWhi | .tEval | .hZlo | .hZhi => false

/-- A software load (R97). -/
def isLoad : Instr → Bool
  | .lwTimeLo | .lwTimeHi | .lwTimecmpLo | .lwTimecmpHi | .lb _ | .lh _ | .lw _ => true
  | .start | .play | .pause | .stop | .reset => false
  | .swTimecmpLo _ | .swTimecmpHi _ | .swTimeLo _ | .swTimeHi _ | .sb _ _ | .sh _ _ | .sw _ _ => false
  | .tick | .clkSet _ | .csrSet _ _ | .tWlo | .tWhi | .tEval | .hZlo | .hZhi => false

/-- A software store (R94 to R96, R99, R100). -/
def isStore : Instr → Bool
  | .swTimecmpLo _ | .swTimecmpHi _ | .swTimeLo _ | .swTimeHi _ | .sb _ _ | .sh _ _ | .sw _ _ => true
  | .start | .play | .pause | .stop | .reset => false
  | .lwTimeLo | .lwTimeHi | .lwTimecmpLo | .lwTimecmpHi | .lb _ | .lh _ | .lw _ => false
  | .tick | .clkSet _ | .csrSet _ _ | .tWlo | .tWhi | .tEval | .hZlo | .hZhi => false

/-- How many compare stores the Watcher sees while the operations are taken: those made once it exists (R109). -/
def seenStores : List Instr → State → Nat
  | [], _ => 0
  | i :: is, s =>
    (isCompareStore i && s.watcherOn).toNat +
      match exec i s with
      | .next t => seenStores is t
      | .fault _ => 0
      | .refused _ => 0

/-- Offset from BASE and size of a software access (R70); size 0 for every other operation. -/
def accessOf : Instr → Nat × Nat
  | .swTimecmpLo _ | .lwTimecmpLo => (offCmpLo, 4)
  | .swTimecmpHi _ | .lwTimecmpHi => (offCmpHi, 4)
  | .swTimeLo _ | .lwTimeLo => (offTimeLo, 4)
  | .swTimeHi _ | .lwTimeHi => (offTimeHi, 4)
  | .sb off _ | .lb off => (off.toNat, 1)
  | .sh off _ | .lh off => (off.toNat, 2)
  | .sw off _ | .lw off => (off.toNat, 4)
  | .start | .play | .pause | .stop | .reset => (0, 0)
  | .tick | .clkSet _ | .csrSet _ _ | .tWlo | .tWhi | .tEval | .hZlo | .hZhi => (0, 0)

/-- A store that R99 or R100 refuses: it touches TIME, or the compare range without being a half's word store. -/
def isRefusedStore (i : Instr) : Bool :=
  isStore i && !isCompareStore i &&
    (touchesTime (accessOf i).1 (accessOf i).2 || touchesCompare (accessOf i).1 (accessOf i).2)

/-- Offset from BASE and number of the bytes an operation stores to when it stores (R45, R52, R94 to R96). -/
def storedBytes : Instr → Nat × Nat
  | .tWlo | .hZlo => (offTimeLo, wordBytes)
  | .tWhi | .hZhi => (offTimeHi, wordBytes)
  | .swTimecmpLo w => accessOf (.swTimecmpLo w)
  | .swTimecmpHi w => accessOf (.swTimecmpHi w)
  | .sb off v => accessOf (.sb off v)
  | .sh off v => accessOf (.sh off v)
  | .sw off v => accessOf (.sw off v)
  | .swTimeLo _ | .swTimeHi _ => (0, 0)
  | .start | .play | .pause | .stop | .reset => (0, 0)
  | .lwTimeLo | .lwTimeHi | .lwTimecmpLo | .lwTimecmpHi | .lb _ | .lh _ | .lw _ => (0, 0)
  | .tick | .clkSet _ | .csrSet _ _ | .tEval => (0, 0)

/-- The time a tick in flight has sampled (R41). -/
def TickPhase.time : TickPhase → Option Time
  | .idle => none
  | .wLo t | .wHi t | .eval t => some t

/-- Every byte of the window `BASE+0x18 .. BASE+0x27` is MEM_VALID (R115, R133). -/
def State.WindowValid (s : State) : Prop := s.cfg.firstInvalid (s.cfg.addr offTimeLo) windowBytes = none

/-- The operations of one played interval from clock `p` to clock `q`, with `x` redundant PLAYs and `y` redundant PAUSEs. -/
def playedInterval (p q : Time) (x y : Nat) : List Instr :=
  [.clkSet p] ++ List.replicate (x + 1) .play ++ [.clkSet q] ++ List.replicate (y + 1) .pause

/-- The clock values of played intervals rise from `c` on. -/
def intervalsRise : Time → List (Time × Time × Nat × Nat) → Prop
  | _, [] => True
  | c, (p, q, _, _) :: l => c.toNat ≤ p.toNat ∧ p.toNat ≤ q.toNat ∧ intervalsRise q l

/-- The sum of the played intervals of some operations, read off the operations alone (R92 item 3): an interval runs from
the clock value at the first PLAY after a PAUSE to the clock value at the next PAUSE. `clk` is the clock value reached,
`begun` the clock value at which the open interval began. -/
def playedTime : Time → Option Time → List Instr → Time
  | _, _, [] => 0#64
  | clk, begun, i :: is =>
    match i with
    | .play => playedTime clk (some (begun.getD clk)) is
    | .pause => (match begun with
        | some p => clk - p
        | none => 0#64) + playedTime clk none is
    | .clkSet c => playedTime (if clk.toNat ≤ c.toNat then c else clk) begun is
    | .start | .stop | .reset => playedTime clk begun is
    | .swTimecmpLo _ | .swTimecmpHi _ | .swTimeLo _ | .swTimeHi _ | .sb _ _ | .sh _ _ | .sw _ _ => playedTime clk begun is
    | .lwTimeLo | .lwTimeHi | .lwTimecmpLo | .lwTimecmpHi | .lb _ | .lh _ | .lw _ => playedTime clk begun is
    | .tick | .csrSet _ _ | .tWlo | .tWhi | .tEval | .hZlo | .hZhi => playedTime clk begun is

/-! ### Invariants -/

/-- The memory keeps its canonical form. -/
def State.MemoryCanonical (s : State) : Prop := s.mem.wf = true

/-- R25: `Stopped` never has `playing` true; R33 with R84: the scheduler is active only once the Watcher exists. -/
def State.LifecycleLegal (s : State) : Prop :=
  (s.playing = true → s.started = true) ∧ (s.started = true → s.watcherOn = true)

/-- R30 with R9: while playing the sync point is set and not above the clock; the time never exceeds the clock, so no sum
of the accumulator wraps (D4); nor does the time of a tick in flight. -/
def State.AccumulatorBounded (s : State) : Prop :=
  (s.playing = true → ∃ p, s.sync = some p ∧ p.toNat ≤ s.clk.toNat ∧ s.elapsed.toNat ≤ p.toNat) ∧
  s.elapsed.toNat ≤ s.clk.toNat ∧
  (∀ t, s.tick.time = some t → t.toNat ≤ s.clk.toNat)

/-- R132, R134: before the Watcher exists the latch is clear, the compare value is CMP_INIT, no tick is in flight and
nothing has been delivered; R84: once it exists, its range is inside the memory region. -/
def State.WatcherConsistent (s : State) : Prop :=
  (s.watcherOn = false → s.armed = false ∧ s.cmpValue = s.cfg.cmpInit ∧ s.tick = .idle ∧ s.delivered = []) ∧
  (s.watcherOn = true → s.cfg.firstInvalid (s.cfg.addr offCmpLo) cmpRangeBytes = none)

/-- R114, R115: a fatal error names a byte of the window that is not MEM_VALID. -/
def State.FatalInWindow (s : State) : Prop :=
  ∀ a, s.fatal = some a →
    s.cfg.addr offTimeLo ≤ a ∧ a ≤ s.cfg.addr offWindowEnd ∧ s.cfg.memValid a = false

/-- R111: every event delivered carries TIMER_IRQ_CODE. -/
def State.DeliveredCodes (s : State) : Prop := ∀ c ∈ s.delivered, c = s.cfg.irqCode

end Sys2Proof.Machine
end

