-- ==== Sys2Proof/Certificates/Slice0/Obligations.lean ====
section
/-! DEFINITION. The statements for the provers. Each docstring names the rule of spec/ it formalises. -/

open Sys2Proof Sys2Proof.Machine

/-! ### Encoding -/

/-- Words written out from R69 to R71 and section 2.7 of spec/95_test_vectors.md decode to what they stand for; the
row of bytes, low byte first, is the model's choice (log 2). -/
def Obligations.SampleWordsDecode : Prop :=
  decode [0x00#8, 0x00#8] = .ok (.start, []) ∧
  decode [0x03#8, 0x00#8] = .ok (.stop, []) ∧
  decode [0x20#8, 0x30#8, 0x99#8, 0x00#8, 0x00#8, 0x00#8] = .ok (.swTimecmpLo 0x99#32, []) ∧
  decode [0x20#8, 0x20#8, 0x05#8, 0x00#8, 0x00#8, 0x00#8] = .ok (.sb 0x20#8 0x05#8, []) ∧
  decode [0x18#8, 0x50#8] = .ok (.lwTimeLo, []) ∧
  decode [0x1A#8, 0x60#8] = .ok (.csrSet true true, []) ∧
  decode [0x05#8, 0x60#8] = .ok (.tEval, []) ∧
  decode [0x07#8, 0x60#8] = .ok (.hZhi, [])

/-- Decode and encode agree for every well-formed instruction, whatever bytes follow (R68 to R72; the row of
bytes is the model's choice, log 2). -/
def Obligations.DecodeEncodeRoundTrip : Prop :=
  ∀ (i : Instr) (rest : List Byte), i.wellFormed = true → decode (encode i ++ rest) = .ok (i, rest)

/-- R74: the named word forms win over the general rows, so the decoder yields well-formed instructions only. -/
def Obligations.DecodedInstructionsWellFormed : Prop :=
  ∀ (bs rest : List Byte) (i : Instr), decode bs = .ok (i, rest) → i.wellFormed = true

/-- R74: every word decodes to the row of the opcode table that matches it with most bits set in its mask, is no operation
where no row matches, and two rows of one mask never both match. -/
def Obligations.DecodeAgreesWithOpcodeTable : Prop :=
  (∀ (op : OpWord) (operand : List Byte),
    match decodeWord op operand with
    | .ok i => ∃ r, bestRow op = some r ∧ r.mnemonic = i.mnemonic
    | .error _ => bestRow op = none) ∧
  (∀ (r r' : OpRow) (op : OpWord), r ∈ opcodeTable → r' ∈ opcodeTable → r.mask = r'.mask →
    r.matches op = true → r'.matches op = true → r = r')

/-- R75: exactly the reserved words are no operation, and a step that meets one sets `refused` and leaves the state
otherwise unchanged (the word leaves the model's own trace). -/
def Obligations.ReservedWordsRefused : Prop :=
  (∀ (op : OpWord) (operand : List Byte),
    (∃ e, decodeWord op operand = .error e) ↔
      (4 ≤ (op.extractLsb' 13 3).toNat) ∨
      (op.extractLsb' 13 3 = 0#3 ∧ (op.extractLsb' 3 10 ≠ 0#10 ∨ 5 ≤ (op.extractLsb' 0 3).toNat)) ∨
      ((op.extractLsb' 13 3 = 1#3 ∨ op.extractLsb' 13 3 = 2#3) ∧
        (op.extractLsb' 11 2 = 3#2 ∨ op.extractLsb' 8 3 ≠ 0#3)) ∨
      (op.extractLsb' 13 3 = 3#3 ∧
        (op.extractLsb' 5 8 ≠ 0#8 ∨ (op.extractLsb' 3 2 ≠ 0#2 ∧ op.extractLsb' 0 3 ≠ 2#3)))) ∧
  (∀ (s : State) (op rest : List Byte) (e : DecodeError), s.cfg.ok = true → s.fatal = none →
    splitOp s.trace = some (op, rest) → decodeOp op = .error e →
    step s = .next { s with refused := true, trace := rest })

/-! ### The step -/

/-- A step runs the decoded operation: where the bytes of the trace decode to an instruction whose agent's step is enabled,
the step is `exec` of it, the operation taken out of the trace (R12, R71; the trace is the model's, log 1). -/
def Obligations.StepRunsDecodedOperation : Prop :=
  ∀ (s : State) (i : Instr) (rest : List Byte), s.cfg.ok = true →
    decode s.trace = .ok (i, rest) → s.enabled i = true →
    step s = exec i { s with trace := rest }

/-- An operation that is not enabled waits in the trace (R13, R83): the operation behind it is served in its place, and
where nothing is behind it the machine holds. The order of service is the model's (log 1). -/
def Obligations.WaitingOperationStaysPending : Prop :=
  ∀ (s : State) (i : Instr) (rest : List Byte), s.cfg.ok = true → s.fatal = none →
    decode s.trace = .ok (i, rest) → s.enabled i = false →
    (rest = [] → step s = .next s) ∧
    (∀ (j : Instr) (rest' : List Byte), decode rest = .ok (j, rest') → s.enabled j = true →
      ∃ op, s.trace = op ++ rest ∧ step s = exec j { s with trace := op ++ rest' })

/-- When each step is enabled (R83, R14, R71, R90, R91, R103, R105 to R107; a bus access and an enable change always), and
that a step which is not enabled changes nothing: it waits (R13). -/
def Obligations.StepsWaitUnlessEnabled : Prop :=
  ∀ s : State, s.fatal = none →
    (∀ i ∈ [Instr.start, .play, .pause, .stop, .reset], s.enabled i = true ↔ s.host = .ready) ∧
    (s.enabled .hZlo = true ↔ s.host = .zeroLo) ∧ (s.enabled .hZhi = true ↔ s.host = .zeroHi) ∧
    (s.enabled .tick = true ↔ s.started = true ∧ s.tick = .idle) ∧
    (s.enabled .tWlo = true ↔ ∃ t, s.tick = .wLo t) ∧ (s.enabled .tWhi = true ↔ ∃ t, s.tick = .wHi t) ∧
    (s.enabled .tEval = true ↔ ∃ t, s.tick = .eval t) ∧
    (∀ c, s.enabled (.clkSet c) = true ↔ s.clk.toNat ≤ c.toNat) ∧
    (∀ a b, s.enabled (.csrSet a b) = true) ∧
    (∀ i, isLoad i = true ∨ isStore i = true → s.enabled i = true) ∧
    (∀ i, s.enabled i = false → exec i s = .next s)

/-- R47: a machine whose BASE is no multiple of 4, or whose window passes the end of the address space, is refused before
its first step; any other machine is not. -/
def Obligations.BrokenConfigurationRefused : Prop :=
  ∀ s : State,
    (step s = .refused .badConfiguration ↔
      ¬ (s.cfg.base.toNat % 4 = 0 ∧ s.cfg.base.toNat + 0x27 ≤ 2 ^ 32 - 1))

/-! ### The fatal configuration error -/

/-- R114: a step that finds an invalid byte sets `fatal` and changes nothing else, and after it no agent has a step. That
the step which raises it is a next state and every later one the fault is the model's reading (log 3). -/
def Obligations.FatalErrorEndsTheRun : Prop :=
  (∀ (s : State) (a b : Nat) (v : Word) (done : State → State), s.cfg.firstInvalid a 4 = some b →
    s.writeWord a v done = { s with fatal := some b }) ∧
  (∀ (s : State) (b : Nat), s.fatal = none → s.host = .ready → s.started = false → s.watcherOn = false →
    s.cfg.firstInvalid (s.cfg.addr 0x20) 8 = some b → exec .start s = .next { s with fatal := some b }) ∧
  (∀ (s t : State) (i : Instr) (a : Nat), s.fatal = none → exec i s = .next t → t.fatal = some a →
    t = { s with fatal := some a } ∧ s.cfg.memValid a = false) ∧
  (∀ (s : State) (i : Instr) (a : Nat), s.fatal = some a → exec i s = .fault (.fatalConfiguration a)) ∧
  (∀ (s : State) (a : Nat), s.cfg.ok = true → s.fatal = some a → step s = .fault (.fatalConfiguration a))

/-- R115: the places that can raise the error, exhaustively; the first invalid byte in increasing order is the one
recorded; where every byte of the window is valid no step raises it. -/
def Obligations.FatalErrorSites : Prop :=
  (∀ (s t : State) (i : Instr) (a : Nat), s.fatal = none → exec i s = .next t → t.fatal = some a →
    ∃ off n, ((i = .start ∧ s.watcherOn = false ∧ off = 0x20 ∧ n = 8) ∨
        ((i = .hZlo ∨ i = .tWlo) ∧ off = 0x18 ∧ n = 4) ∨ ((i = .hZhi ∨ i = .tWhi) ∧ off = 0x1C ∧ n = 4)) ∧
      s.cfg.addr off ≤ a ∧ a < s.cfg.addr off + n ∧ s.cfg.memValid a = false ∧
      ∀ b, s.cfg.addr off ≤ b → b < a → s.cfg.memValid b = true) ∧
  (∀ (s t : State) (i : Instr), (∀ k, 0x18 ≤ k → k ≤ 0x27 → s.cfg.memValid (s.cfg.addr k) = true) →
    s.fatal = none → exec i s = .next t → t.fatal = none)

/-! ### Lifecycle commands -/

/-- R84: START. -/
def Obligations.StartCommand : Prop :=
  ∀ s : State, s.fatal = none → s.host = .ready →
    (s.started = true → exec .start s = .next s) ∧
    (s.started = false → s.watcherOn = true → exec .start s = .next { s with started := true }) ∧
    (s.started = false → s.watcherOn = false →
      (∀ k, 0x20 ≤ k → k ≤ 0x27 → s.cfg.memValid (s.cfg.addr k) = true) →
      exec .start s = .next { s with watcherOn := true, started := true }) ∧
    (∀ k, s.started = false → s.watcherOn = false → 0x20 ≤ k → k ≤ 0x27 →
      (∀ m, 0x20 ≤ m → m < k → s.cfg.memValid (s.cfg.addr m) = true) → s.cfg.memValid (s.cfg.addr k) = false →
      exec .start s = .next { s with fatal := some (s.cfg.addr k) })

/-- R85: PLAY. -/
def Obligations.PlayCommand : Prop :=
  ∀ s : State, s.fatal = none → s.host = .ready →
    (s.started = true → s.playing = false →
      exec .play s = .next { s with sync := some s.clk, playing := true }) ∧
    (s.started = false ∨ s.playing = true → exec .play s = .next s)

/-- R86: PAUSE. Where no sync point was ever set, which no run reaches (R30), the time folded in is a free value (log 8). -/
def Obligations.PauseCommand : Prop :=
  ∀ s : State, s.fatal = none → s.host = .ready →
    (∀ p, s.playing = true → s.sync = some p →
      exec .pause s = .next { s with elapsed := s.elapsed + (s.clk - p), playing := false }) ∧
    (s.playing = true → s.sync = none → ∃ x, exec .pause s = .next { s with elapsed := x, playing := false }) ∧
    (s.playing = false → exec .pause s = .next s)

/-- R88: STOP, its atomic step; and with its two zero writes (R90, R91) and nothing between, where both words are valid. -/
def Obligations.StopCommand : Prop :=
  ∀ s : State, s.fatal = none → s.host = .ready →
    exec .stop s =
      .next { s with playing := false, started := false, elapsed := 0, sync := some s.clk, host := .zeroLo } ∧
    (s.cfg.firstInvalid (s.cfg.addr 0x18) 4 = none → s.cfg.firstInvalid (s.cfg.addr 0x1C) 4 = none →
      runOps [.stop, .hZlo, .hZhi] s = .next
        { s with playing := false, started := false, elapsed := 0, sync := some s.clk,
                 mem := (s.mem.writeBytes (s.cfg.addr 0x18) [0, 0, 0, 0]).writeBytes (s.cfg.addr 0x1C) [0, 0, 0, 0] }) ∧
    (∀ b, s.cfg.firstInvalid (s.cfg.addr 0x18) 4 = some b →
      ∃ t, runOps [.stop, .hZlo] s = .next t ∧ t.fatal = some b ∧ t.mem = s.mem)

/-- R87: RESET, its atomic step; and with its two zero writes (R90, R91) and nothing between, where both words are valid. -/
def Obligations.ResetCommand : Prop :=
  ∀ s : State, s.fatal = none → s.host = .ready →
    exec .reset s = .next { s with elapsed := 0, sync := some s.clk, host := .zeroLo } ∧
    (s.cfg.firstInvalid (s.cfg.addr 0x18) 4 = none → s.cfg.firstInvalid (s.cfg.addr 0x1C) 4 = none →
      runOps [.reset, .hZlo, .hZhi] s = .next
        { s with elapsed := 0, sync := some s.clk,
                 mem := (s.mem.writeBytes (s.cfg.addr 0x18) [0, 0, 0, 0]).writeBytes (s.cfg.addr 0x1C) [0, 0, 0, 0] }) ∧
    (∀ b, s.cfg.firstInvalid (s.cfg.addr 0x18) 4 = some b →
      ∃ t, runOps [.reset, .hZlo] s = .next t ∧ t.fatal = some b ∧ t.mem = s.mem)

/-- R90 and R91: the zero writes of TIME_LO and TIME_HI, enabled in their phases only. -/
def Obligations.ZeroWriteSteps : Prop :=
  ∀ s : State, s.fatal = none →
    (s.host = .zeroLo → (∀ k, 0x18 ≤ k → k ≤ 0x1B → s.cfg.memValid (s.cfg.addr k) = true) →
      exec .hZlo s = .next { s with mem := s.mem.writeBytes (s.cfg.addr 0x18) [0, 0, 0, 0], host := .zeroHi }) ∧
    (s.host = .zeroHi → (∀ k, 0x1C ≤ k → k ≤ 0x1F → s.cfg.memValid (s.cfg.addr k) = true) →
      exec .hZhi s = .next { s with mem := s.mem.writeBytes (s.cfg.addr 0x1C) [0, 0, 0, 0], host := .ready }) ∧
    (s.host = .zeroLo → ∀ b, s.cfg.firstInvalid (s.cfg.addr 0x18) 4 = some b →
      exec .hZlo s = .next { s with fatal := some b }) ∧
    (s.host = .zeroHi → ∀ b, s.cfg.firstInvalid (s.cfg.addr 0x1C) 4 = some b →
      exec .hZhi s = .next { s with fatal := some b }) ∧
    (s.enabled .hZlo = true ↔ s.host = .zeroLo) ∧ (s.enabled .hZhi = true ↔ s.host = .zeroHi)

/-- R89: the transition table of the lifecycle state. START from `Stopped` is the accepted one: its Watcher exists or its
range is inside the memory region (R84). -/
def Obligations.LifecycleTransitionTable : Prop :=
  ∀ s : State, s.fatal = none → s.host = .ready → (s.playing = true → s.started = true) →
    (s.watcherOn = true ∨ s.cfg.firstInvalid (s.cfg.addr 0x20) 8 = none) →
    ∃ a b c d e, exec .start s = .next a ∧ exec .play s = .next b ∧ exec .pause s = .next c ∧
      exec .reset s = .next d ∧ exec .stop s = .next e ∧
      (s.lifecycle = .stopped → a.lifecycle = .runningPaused ∧ b.lifecycle = .stopped ∧ c.lifecycle = .stopped ∧
        d.lifecycle = .stopped ∧ e.lifecycle = .stopped) ∧
      (s.lifecycle = .runningPaused → a.lifecycle = .runningPaused ∧ b.lifecycle = .runningPlaying ∧
        c.lifecycle = .runningPaused ∧ d.lifecycle = .runningPaused ∧ e.lifecycle = .stopped) ∧
      (s.lifecycle = .runningPlaying → a.lifecycle = .runningPlaying ∧ b.lifecycle = .runningPlaying ∧
        c.lifecycle = .runningPaused ∧ d.lifecycle = .runningPlaying ∧ e.lifecycle = .stopped)

/-! ### Who writes what -/

/-- R45: the writers of each field, exhaustively. -/
def Obligations.WritersOfEachField : Prop :=
  ∀ (s t : State) (i : Instr), exec i s = .next t →
    (t.started ≠ s.started → i = .start ∨ i = .stop) ∧
    (t.playing ≠ s.playing → i = .play ∨ i = .pause ∨ i = .stop) ∧
    (t.elapsed ≠ s.elapsed → i = .pause ∨ i = .reset ∨ i = .stop) ∧
    (t.sync ≠ s.sync → i = .play ∨ i = .reset ∨ i = .stop) ∧
    (t.cmpValue ≠ s.cmpValue → isCompareStore i = true ∧ s.watcherOn = true) ∧
    (t.armed ≠ s.armed → (t.armed = true ∧ isCompareStore i = true ∧ s.watcherOn = true) ∨
      (t.armed = false ∧ i = .tEval)) ∧
    (t.watcherOn ≠ s.watcherOn → t.watcherOn = true ∧ i = .start) ∧
    (∀ k, 0x18 ≤ k → k < 0x20 → t.mem.read (s.cfg.addr k) ≠ s.mem.read (s.cfg.addr k) →
      i = .tWlo ∨ i = .tWhi ∨ i = .hZlo ∨ i = .hZhi)

/-- The rest of the frame: no step writes the parameters or the trace, only CLK_SET the clock, only CSR_SET the enables,
only the commands and zero writes `host`, only the tick steps `tick`, only T_EVAL the delivered events, only a load the
returned values, only a store the mark `refused`, and `fatal` is never cleared (R14, R15, R22, R23, R34, R35, R111). -/
def Obligations.FrameOfTheOtherFields : Prop :=
  ∀ (s t : State) (i : Instr), exec i s = .next t →
    t.cfg = s.cfg ∧ t.trace = s.trace ∧
    (t.clk ≠ s.clk → ∃ c, i = .clkSet c) ∧
    (t.tie ≠ s.tie ∨ t.gie ≠ s.gie → ∃ a b, i = .csrSet a b) ∧
    (t.host ≠ s.host → i = .reset ∨ i = .stop ∨ i = .hZlo ∨ i = .hZhi) ∧
    (t.tick ≠ s.tick → i = .tick ∨ i = .tWlo ∨ i = .tWhi ∨ i = .tEval) ∧
    (t.delivered ≠ s.delivered → i = .tEval) ∧
    (t.loaded ≠ s.loaded → isLoad i = true) ∧
    (t.draws ≠ s.draws → isLoad i = true ∨ isStore i = true) ∧
    (t.refused ≠ s.refused → t.refused = true ∧ isStore i = true) ∧
    (t.fatal ≠ s.fatal → s.fatal = none)

/-- Every byte of memory is unchanged by a step except the bytes at `BASE + off` that the operation stores to. -/
def Obligations.MemoryFrame : Prop :=
  ∀ (s t : State) (i : Instr) (a : Nat), exec i s = .next t →
    (a < s.cfg.addr (storedBytes i).1 ∨ s.cfg.addr (storedBytes i).1 + (storedBytes i).2 ≤ a) →
    t.mem.read a = s.mem.read a

/-! ### The tick -/

/-- R103 and R104: T1 is enabled while started and idle; it samples the reported time while playing, and a paused tick is
empty. -/
def Obligations.TickSamplesTime : Prop :=
  ∀ s : State, s.fatal = none →
    (s.enabled .tick = true ↔ s.started = true ∧ s.tick = .idle) ∧
    (s.started = true → s.tick = .idle → s.playing = true →
      exec .tick s = .next { s with tick := .wLo (s.reportedTime s.clk) }) ∧
    (s.started = true → s.tick = .idle → s.playing = false → exec .tick s = .next s)

/-- R105 and R106: T2 and T3 publish the halves of the sampled time, whatever `started` and `playing` are; an invalid byte
of the word is fatal. -/
def Obligations.TickPublishesHalves : Prop :=
  ∀ (s : State) (t : Time), s.fatal = none →
    (s.tick = .wLo t →
      (s.cfg.firstInvalid (s.cfg.addr 0x18) 4 = none →
        exec .tWlo s = .next
          { s with mem := s.mem.writeBytes (s.cfg.addr 0x18) (leBytes 4 (t.extractLsb' 0 32)), tick := .wHi t }) ∧
      (∀ b, s.cfg.firstInvalid (s.cfg.addr 0x18) 4 = some b → exec .tWlo s = .next { s with fatal := some b })) ∧
    (s.tick = .wHi t →
      (s.cfg.firstInvalid (s.cfg.addr 0x1C) 4 = none →
        exec .tWhi s = .next
          { s with mem := s.mem.writeBytes (s.cfg.addr 0x1C) (leBytes 4 (t.extractLsb' 32 32)), tick := .eval t }) ∧
      (∀ b, s.cfg.firstInvalid (s.cfg.addr 0x1C) 4 = some b → exec .tWhi s = .next { s with fatal := some b }))

/-- R107 and R108: T4 fires exactly where the sampled time is at or above the compare value (unsigned), the latch is set
and both enables are on; it then clears the latch and delivers one event with TIMER_IRQ_CODE. -/
def Obligations.TickEvaluates : Prop :=
  ∀ (s : State) (t : Time), s.fatal = none → s.tick = .eval t →
    (s.cmpValue.toNat ≤ t.toNat ∧ s.armed = true ∧ s.tie = true ∧ s.gie = true →
      exec .tEval s = .next
        { s with armed := false, delivered := s.delivered ++ [s.cfg.irqCode], tick := .idle }) ∧
    (¬ (s.cmpValue.toNat ≤ t.toNat ∧ s.armed = true ∧ s.tie = true ∧ s.gie = true) →
      exec .tEval s = .next { s with tick := .idle })

/-- R104 to R106 with R78: a whole publish with nothing between leaves in TIME_HI and TIME_LO a pair from which the
reported time at the sample is reconstructed. -/
def Obligations.PublishedTimeIsReportedTime : Prop :=
  ∀ s : State, s.fatal = none → s.started = true → s.playing = true → s.tick = .idle → s.mem.wf = true →
    s.WindowValid →
    ∃ t, runOps [.tick, .tWlo, .tWhi] s = .next t ∧
      joinHalves (t.mem.readWord (s.cfg.addr 0x1C)) (t.mem.readWord (s.cfg.addr 0x18)) = s.reportedTime s.clk ∧
      t.tick = .eval (s.reportedTime s.clk)

/-- R110: a tick past T1 is not cancelled: no step but its own next sub-step changes its phase, and that sub-step stays
enabled until it is taken, whatever commands come between. -/
def Obligations.InFlightTickNotCancelled : Prop :=
  ∀ (s t : State) (i j : Instr), exec i s = .next t → t.fatal = none → j ∈ [Instr.tWlo, .tWhi, .tEval] →
    s.enabled j = true → i ≠ j → t.tick = s.tick ∧ t.enabled j = true

/-- R137 and R138: a tick that sampled before a STOP publishes its time after the zero writes, and may raise after it. -/
def Obligations.StalePublishAfterStop : Prop :=
  ∀ (s : State) (t : Time), s.fatal = none → s.host = .ready → s.tick = .wLo t → s.mem.wf = true → s.WindowValid →
    ∃ u, runOps [.stop, .hZlo, .hZhi, .tWlo, .tWhi, .tEval] s = .next u ∧
      u.lifecycle = .stopped ∧ u.elapsed = 0 ∧
      joinHalves (u.mem.readWord (s.cfg.addr 0x1C)) (u.mem.readWord (s.cfg.addr 0x18)) = t ∧
      (u.delivered = s.delivered ++ [s.cfg.irqCode] ↔
        s.cmpValue.toNat ≤ t.toNat ∧ s.armed = true ∧ s.tie = true ∧ s.gie = true)

/-- R109: in any run the raises are at most the compare stores the Watcher saw, those made once it exists, and one more if
the latch was set at its start. -/
def Obligations.RaisesBoundedByArmings : Prop :=
  ∀ (ops : List Instr) (s t : State), runOps ops s = .next t →
    t.delivered.length + t.armed.toNat ≤ s.delivered.length + s.armed.toNat + seenStores ops s

/-- R118 and R139: while an enable is off no interrupt is raised and a set latch stays set. -/
def Obligations.MaskedTimerNeverRaises : Prop :=
  ∀ (ops : List Instr) (s t : State), runOps ops s = .next t → (s.tie = false ∨ s.gie = false) →
    (∀ a b, .csrSet a b ∉ ops) → t.delivered = s.delivered ∧ (s.armed = true → t.armed = true)

/-- R142: from a state that is not playing and has no tick in flight, no interrupt is raised before a PLAY. -/
def Obligations.NoEvaluationUnlessPlaying : Prop :=
  ∀ (ops : List Instr) (s t : State), runOps ops s = .next t → s.playing = false → s.tick = .idle → .play ∉ ops →
    t.delivered = s.delivered ∧ t.tick = .idle ∧ t.playing = false

/-- R132: a run from block reset that raises has an evaluation with both enables on and the latch set, and before it, in
this order, a START, a PLAY and the other three sub-steps of a whole tick, and a compare store after a START. -/
def Obligations.FirstRaiseNeedsBootSequence : Prop :=
  ∀ (ops : List Instr) (cfg : Config) (clk : Time) (tie gie : Bool) (t : State),
    runOps ops (State.resetWith cfg clk tie gie) = .next t → t.delivered ≠ [] →
    ∃ (before after : List Instr) (u : State), ops = before ++ [.tEval] ++ after ∧
      runOps before (State.resetWith cfg clk tie gie) = .next u ∧
      u.tie = true ∧ u.gie = true ∧ u.armed = true ∧ u.delivered = [] ∧
      List.Sublist [.start, .play, .tick, .tWlo, .tWhi] before ∧
      ∃ st, isCompareStore st = true ∧ List.Sublist [.start, st] before

/-! ### The compare watcher -/

/-- R95: a store to TIMECMP_LO. The word in memory is stated where it is inside the memory region; the effect on the block
is stated wherever it is. -/
def Obligations.StoreCompareLow : Prop :=
  ∀ (s : State) (w : Word), s.fatal = none →
    (s.watcherOn = true → ∃ t, exec (.swTimecmpLo w) s = .next t ∧ t.armed = true ∧
      t.cmpValue = (s.cmpValue &&& 0xFFFFFFFF00000000#64) ||| w.setWidth 64) ∧
    (s.cfg.firstInvalid (s.cfg.addr 0x20) 4 = none →
      (s.watcherOn = true → exec (.swTimecmpLo w) s = .next
        { s with mem := s.mem.writeBytes (s.cfg.addr 0x20) (leBytes 4 w),
                 cmpValue := (s.cmpValue &&& 0xFFFFFFFF00000000#64) ||| w.setWidth 64, armed := true }) ∧
      (s.watcherOn = false → exec (.swTimecmpLo w) s = .next
        { s with mem := s.mem.writeBytes (s.cfg.addr 0x20) (leBytes 4 w) }))

/-- R96: a store to TIMECMP_HI. The word in memory is stated where it is inside the memory region; the effect on the block
is stated wherever it is. -/
def Obligations.StoreCompareHigh : Prop :=
  ∀ (s : State) (w : Word), s.fatal = none →
    (s.watcherOn = true → ∃ t, exec (.swTimecmpHi w) s = .next t ∧ t.armed = true ∧
      t.cmpValue = (s.cmpValue &&& 0x00000000FFFFFFFF#64) ||| (w.setWidth 64 <<< 32)) ∧
    (s.cfg.firstInvalid (s.cfg.addr 0x24) 4 = none →
      (s.watcherOn = true → exec (.swTimecmpHi w) s = .next
        { s with mem := s.mem.writeBytes (s.cfg.addr 0x24) (leBytes 4 w),
                 cmpValue := (s.cmpValue &&& 0x00000000FFFFFFFF#64) ||| (w.setWidth 64 <<< 32), armed := true }) ∧
      (s.watcherOn = false → exec (.swTimecmpHi w) s = .next
        { s with mem := s.mem.writeBytes (s.cfg.addr 0x24) (leBytes 4 w) }))

/-- R102: a low and a high store give the same compare value in either order, a second store of one half replaces only
that half, and a read of either half does not interact with them. -/
def Obligations.HalfStoresIndependent : Prop :=
  ∀ (s : State) (lo lo' hi hi' : Word), s.fatal = none → s.watcherOn = true →
    (∃ t u, runOps [.swTimecmpLo lo, .swTimecmpHi hi] s = .next t ∧
      runOps [.swTimecmpHi hi, .swTimecmpLo lo] s = .next u ∧
      t.cmpValue = joinHalves hi lo ∧ u.cmpValue = joinHalves hi lo ∧ t.armed = true ∧ u.armed = true) ∧
    (∃ t, runOps [.swTimecmpLo lo, .swTimecmpHi hi, .swTimecmpLo lo'] s = .next t ∧ t.cmpValue = joinHalves hi lo') ∧
    (∃ t, runOps [.swTimecmpHi hi, .swTimecmpLo lo, .swTimecmpHi hi'] s = .next t ∧ t.cmpValue = joinHalves hi' lo) ∧
    (∀ st ∈ [Instr.swTimecmpLo lo, .swTimecmpHi hi], ∀ ld ∈ [Instr.lwTimecmpLo, .lwTimecmpHi],
      ∃ t u, runOps [ld, st, ld] s = .next t ∧ exec st s = .next u ∧ t.cmpValue = u.cmpValue ∧ t.armed = u.armed)

/-- R98: a compare store before the first START changes the memory word and nothing else, and is not replayed when the
Watcher is created. -/
def Obligations.StoresBeforeStartAreLost : Prop :=
  ∀ (s : State) (w : Word) (i : Instr) (off : Nat),
    (i = .swTimecmpLo w ∧ off = 0x20) ∨ (i = .swTimecmpHi w ∧ off = 0x24) →
    s.fatal = none → s.started = false → s.watcherOn = false → s.host = .ready → s.mem.wf = true →
    s.cfg.firstInvalid (s.cfg.addr 0x20) 8 = none →
    exec i s = .next { s with mem := s.mem.writeBytes (s.cfg.addr off) (leBytes 4 w) } ∧
    (s.mem.writeBytes (s.cfg.addr off) (leBytes 4 w)).readWord (s.cfg.addr off) = w ∧
    (∀ a, a < s.cfg.addr off ∨ s.cfg.addr off + 4 ≤ a →
      (s.mem.writeBytes (s.cfg.addr off) (leBytes 4 w)).read a = s.mem.read a) ∧
    runOps [i, .start] s = .next
      { s with mem := s.mem.writeBytes (s.cfg.addr off) (leBytes 4 w), watcherOn := true, started := true }

/-- R94, last arm: a store whose bytes are all outside the window goes to the memory and has no effect on the block. -/
def Obligations.StoresOutsideTheWindow : Prop :=
  ∀ (s : State) (off : BitVec 8) (b : BitVec 8) (h : BitVec 16) (w : Word), s.fatal = none →
    (off.toNat + 1 ≤ 0x18 ∨ 0x28 ≤ off.toNat →
      s.cfg.firstInvalid (s.cfg.addr off.toNat) 1 = none →
      exec (.sb off b) s = .next { s with mem := s.mem.writeBytes (s.cfg.addr off.toNat) [b] }) ∧
    (off.toNat + 2 ≤ 0x18 ∨ 0x28 ≤ off.toNat →
      s.cfg.firstInvalid (s.cfg.addr off.toNat) 2 = none →
      exec (.sh off h) s = .next { s with mem := s.mem.writeBytes (s.cfg.addr off.toNat) (leBytes 2 h) }) ∧
    (off.toNat + 4 ≤ 0x18 ∨ 0x28 ≤ off.toNat →
      s.cfg.firstInvalid (s.cfg.addr off.toNat) 4 = none →
      exec (.sw off w) s = .next { s with mem := s.mem.writeBytes (s.cfg.addr off.toNat) (leBytes 4 w) })

/-- A software store of which some byte is outside the memory region completes all the same (the model's choice, log 7): a
store that R99 or R100 refuses sets the mark and keeps all of memory; any other stores free bytes in its own bytes inside
the region and leaves every byte outside them; a compare store that the Watcher sees gives the compare value its half and
sets the latch; nothing else changes. -/
def Obligations.StoresOutsideTheRegionComplete : Prop :=
  ∀ (s : State) (i : Instr) (b : Nat), s.fatal = none → isStore i = true →
    s.cfg.firstInvalid (s.cfg.addr (accessOf i).1) (accessOf i).2 = some b →
    let a := s.cfg.addr (accessOf i).1
    let n := (accessOf i).2
    let m := s.mem.scramble s.cfg a (freeBytes s.draws n)
    (isRefusedStore i = true → exec i s = .next { s with refused := true }) ∧
    (isRefusedStore i = false → isCompareStore i = false ∨ s.watcherOn = false →
      exec i s = .next { s with mem := m, draws := s.draws + n }) ∧
    (∀ w, i = .swTimecmpLo w ∨ i = .sw 0x20#8 w → s.watcherOn = true →
      exec i s = .next { s with mem := m, draws := s.draws + n, armed := true,
                                cmpValue := (s.cmpValue &&& 0xFFFFFFFF00000000#64) ||| w.setWidth 64 }) ∧
    (∀ w, i = .swTimecmpHi w ∨ i = .sw 0x24#8 w → s.watcherOn = true →
      exec i s = .next { s with mem := m, draws := s.draws + n, armed := true,
                                cmpValue := (s.cmpValue &&& 0x00000000FFFFFFFF#64) ||| (w.setWidth 64 <<< 32) }) ∧
    (∀ x, x < a ∨ a + n ≤ x → m.read x = s.mem.read x)

/-- R100: a store of any width that touches TIME_LO or TIME_HI is refused and has no effect. -/
def Obligations.TimeStoresRefused : Prop :=
  ∀ (s : State) (off : BitVec 8) (b : BitVec 8) (h : BitVec 16) (w : Word), s.fatal = none →
    exec (.swTimeLo w) s = .next { s with refused := true } ∧
    exec (.swTimeHi w) s = .next { s with refused := true } ∧
    (off.toNat ≤ 0x1F → 0x18 ≤ off.toNat → exec (.sb off b) s = .next { s with refused := true }) ∧
    (off.toNat ≤ 0x1F → 0x18 ≤ off.toNat + 1 → exec (.sh off h) s = .next { s with refused := true }) ∧
    (off.toNat ≤ 0x1F → 0x18 ≤ off.toNat + 3 → exec (.sw off w) s = .next { s with refused := true })

/-- R99: a store that touches the compare range and is not a word store at exactly `+0x20` or `+0x24` is refused and has no
effect. -/
def Obligations.CompareSubwordStoresRefused : Prop :=
  ∀ (s : State) (off : BitVec 8) (b : BitVec 8) (h : BitVec 16) (w : Word), s.fatal = none →
    (off.toNat ≤ 0x27 → 0x20 ≤ off.toNat → exec (.sb off b) s = .next { s with refused := true }) ∧
    (off.toNat ≤ 0x27 → 0x20 ≤ off.toNat + 1 → exec (.sh off h) s = .next { s with refused := true }) ∧
    (off.toNat ≤ 0x27 → 0x20 ≤ off.toNat + 3 → off.toNat ≠ 0x20 → off.toNat ≠ 0x24 →
      exec (.sw off w) s = .next { s with refused := true })

/-- R97: every load returns the memory's bytes as an unsigned number, low byte first, and changes no field of the block. A
load of which some byte is outside the memory region returns a free value (log 7); the record `loaded` is the model's
(log 9). -/
def Obligations.LoadsReturnMemory : Prop :=
  ∀ (s : State) (i : Instr), s.fatal = none → isLoad i = true →
    (s.cfg.firstInvalid (s.cfg.addr (accessOf i).1) (accessOf i).2 = none →
      exec i s = .next { s with loaded := s.loaded ++
        [ofLeBytes 32 (s.mem.readBytes (s.cfg.addr (accessOf i).1) (accessOf i).2)] }) ∧
    (∀ b, s.cfg.firstInvalid (s.cfg.addr (accessOf i).1) (accessOf i).2 = some b →
      ∃ v, exec i s = .next { s with loaded := s.loaded ++ [v], draws := s.draws + (accessOf i).2 })

/-- R50: under little-endian byte order a byte load at a window word's offset plus k returns bits 8k+7..8k of the word, a
halfword load at plus 2j bits 16j+15..16j; no read affects the block. -/
def Obligations.SubwordLoadsSeeTheWord : Prop :=
  ∀ (s : State) (off : BitVec 8) (k : Nat), s.fatal = none → s.WindowValid →
    off ∈ [0x18#8, 0x1C#8, 0x20#8, 0x24#8] →
    (k < 4 → exec (.lb (off + BitVec.ofNat 8 k)) s = .next { s with loaded := s.loaded ++
      [((s.mem.readWord (s.cfg.addr off.toNat)).extractLsb' (8 * k) 8).setWidth 32] }) ∧
    (k < 2 → exec (.lh (off + BitVec.ofNat 8 (2 * k))) s = .next { s with loaded := s.loaded ++
      [((s.mem.readWord (s.cfg.addr off.toNat)).extractLsb' (16 * k) 16).setWidth 32] })

/-- R60: a read returns, byte by byte, the latest write: a word just stored reads back, and every byte outside it reads as
before. -/
def Obligations.ReadReturnsLatestWrite : Prop :=
  ∀ (m : Memory) (a : Nat) (w : Word), m.wf = true → a + 4 ≤ 2 ^ 32 →
    (m.writeBytes a (leBytes 4 w)).readWord a = w ∧
    ∀ b, b < a ∨ a + 4 ≤ b → (m.writeBytes a (leBytes 4 w)).read b = m.read b

/-- R81 and R135: the masked sequence sets the whole deadline with the latch set and no interrupt raised, and gives the
global enable back, whatever steps but compare stores and enable changes come between its four (whole ticks and their
evaluations among them); in a machine whose window is valid such a run exists. -/
def Obligations.MaskedSetcmpSetsDeadline : Prop :=
  ∀ (s : State) (v : Time) (a b c : List Instr), s.fatal = none → s.watcherOn = true →
    (∀ i ∈ a ++ b ++ c, isCompareStore i = false ∧ ∀ x y, i ≠ .csrSet x y) →
    let ops := [.csrSet false s.gie] ++ a ++ [.swTimecmpHi (highHalf v)] ++ b ++ [.swTimecmpLo (lowHalf v)] ++ c ++
      [.csrSet true s.gie]
    (∀ t, runOps ops s = .next t → t.cmpValue = v ∧ t.armed = true ∧ t.delivered = s.delivered ∧ t.tie = true ∧
      t.gie = s.gie) ∧
    (s.WindowValid → ∃ t, runOps ops s = .next t) ∧
    (∃ t, runOps (Line.expand s (.setcmpMasked v)) s = .next t ∧ t.cmpValue = v ∧ t.armed = true ∧
      t.delivered = s.delivered ∧ t.tie = true ∧ t.gie = s.gie)

/-- R101 and R135: a tick that evaluates between the two half stores compares against one new and one old half, may fire on
it, and the second store arms the latch again. -/
def Obligations.TornCompareValueMayFire : Prop :=
  ∀ (s : State) (t : Time) (v : Time), s.fatal = none → s.watcherOn = true → s.tick = .eval t → s.tie = true → s.gie = true →
    (joinHalves (highHalf s.cmpValue) (lowHalf v)).toNat ≤ t.toNat →
    ∃ u, runOps [.swTimecmpLo (lowHalf v), .tEval, .swTimecmpHi (highHalf v)] s = .next u ∧
      u.delivered = s.delivered ++ [s.cfg.irqCode] ∧ u.cmpValue = v ∧ u.armed = true

/-! ### The environment -/

/-- R14: the clock may be raised by any amount and is never lowered; that a CLK_SET to a lower value waits is the model's
reading (log 1). -/
def Obligations.ClockNeverLowered : Prop :=
  (∀ (s : State) (c : Time), s.fatal = none →
    (s.clk.toNat ≤ c.toNat → exec (.clkSet c) s = .next { s with clk := c }) ∧
    (c.toNat < s.clk.toNat → exec (.clkSet c) s = .next s)) ∧
  (∀ (s t : State) (i : Instr), exec i s = .next t → s.clk.toNat ≤ t.clk.toNat)

/-- R15: the Env agent sets either enable; the block reads them at T4 only, so every other step does the same to the rest
of the state whatever they are. -/
def Obligations.EnablesReadOnlyAtEvaluation : Prop :=
  (∀ (s : State) (a b : Bool), s.fatal = none → exec (.csrSet a b) s = .next { s with tie := a, gie := b }) ∧
  (∀ (s t : State) (i : Instr) (a b : Bool), i ≠ .tEval → (∀ x y, i ≠ .csrSet x y) → exec i s = .next t →
    exec i { s with tie := a, gie := b } = .next { t with tie := a, gie := b })

/-! ### The accumulator -/

/-- R29: the reported time, and R92 item 2: frozen while not playing. -/
def Obligations.ReportedTimeFormula : Prop :=
  ∀ s : State,
    (∀ p c, s.playing = true → s.sync = some p → s.reportedTime c = s.elapsed + (c - p)) ∧
    (∀ c, s.playing = false → s.reportedTime c = s.elapsed)

/-- R92 item 1: START, PLAY and PAUSE are idempotent, and a whole STOP twice gives the state of one STOP but for `sync`,
which takes the later clock. -/
def Obligations.CommandsIdempotent : Prop :=
  (∀ (s t : State) (i : Instr), i ∈ [Instr.start, .play, .pause] → exec i s = .next t → t.fatal = none →
    exec i t = .next t) ∧
  (∀ (s t : State) (c : Time), s.host = .ready → s.mem.wf = true → runOps [.stop, .hZlo, .hZhi] s = .next t → t.fatal = none →
    s.clk.toNat ≤ c.toNat →
    runOps [.clkSet c, .stop, .hZlo, .hZhi] t = .next { t with clk := c, sync := some c })

/-- R92 item 3: in any run with no RESET or STOP, whatever other steps and redundant PLAYs and PAUSEs it holds and wherever
the clock rises between them, after the last PAUSE the accumulator holds the sum of the played intervals; and runs of any
such intervals exist. -/
def Obligations.AccumulatorSumsPlayedIntervals : Prop :=
  (∀ (ops : List Instr) (s t : State), s.host = .ready → s.started = true → s.playing = false → s.elapsed = 0 →
    .reset ∉ ops → .stop ∉ ops → runOps ops s = .next t → t.playing = false →
    t.elapsed = playedTime s.clk none ops) ∧
  (∀ (l : List (Time × Time × Nat × Nat)) (s : State), s.fatal = none → s.host = .ready → s.started = true →
    s.playing = false → s.elapsed = 0 → intervalsRise s.clk l →
    ∃ t, runOps (l.flatMap (fun e => playedInterval e.1 e.2.1 e.2.2.1 e.2.2.2)) s = .next t ∧ t.playing = false ∧
      t.elapsed = (l.map (fun e => e.2.1 - e.1)).sum)

/-- R92 item 4: RESET and its two zero writes with no tick write between, then a time read, yields 0 for both words,
whatever the time was. -/
def Obligations.ResetThenTimeReadsZero : Prop :=
  ∀ s : State, s.fatal = none → s.host = .ready → s.mem.wf = true → s.WindowValid →
    ∃ t, runOps [.reset, .hZlo, .hZhi, .lwTimeLo, .lwTimeHi] s = .next t ∧ t.loaded = s.loaded ++ [0, 0] ∧
      t.host = .ready

/-- R30 and R144: with the invariant of the accumulator, no step but RESET and STOP lowers the reported time. -/
def Obligations.ReportedTimeNonDecreasing : Prop :=
  ∀ (s t : State) (i : Instr), s.AccumulatorBounded → exec i s = .next t → i ≠ .reset → i ≠ .stop →
    (s.reportedTime s.clk).toNat ≤ (t.reportedTime t.clk).toNat

/-! ### Reset and the invariants every step keeps -/

/-- R43: block reset, for every choice of the parameters and the Env inputs; no interrupt is possible until the latch is set. -/
def Obligations.BlockResetValues : Prop :=
  ∀ (cfg : Config) (clk : Time) (tie gie : Bool),
    let s := State.resetWith cfg clk tie gie
    s.started = false ∧ s.playing = false ∧ s.elapsed = 0 ∧ s.sync = none ∧ s.cmpValue = cfg.cmpInit ∧
    s.armed = false ∧ s.watcherOn = false ∧ s.host = .ready ∧ s.tick = .idle ∧ s.fatal = none ∧ s.refused = false ∧
    s.mem = cfg.memInit ∧ s.clk = clk ∧ s.tie = tie ∧ s.gie = gie ∧ s.lifecycle = .stopped ∧
    (∀ (t c : Time) (a b : Bool), evaluate t c s.armed a b = false)

/-- The invariants below hold at block reset, for every choice of the parameters and the Env inputs whose initial memory is
in canonical form, and at `State.reset`. -/
def Obligations.ResetMeetsTheInvariants : Prop :=
  (∀ (cfg : Config) (clk : Time) (tie gie : Bool), Memory.wf cfg.memInit = true →
    let s := State.resetWith cfg clk tie gie
    s.MemoryCanonical ∧ s.LifecycleLegal ∧ s.AccumulatorBounded ∧ s.WatcherConsistent ∧ s.FatalInWindow ∧
      s.DeliveredCodes ∧ s.Safe) ∧
  State.reset.MemoryCanonical ∧ State.reset.cfg.ok = true

/-- Every step keeps the memory in canonical form, so that equal memories are equal data. -/
def Obligations.MemoryCanonicalKept : Prop :=
  ∀ s t : State, s.MemoryCanonical → step s = .next t → t.MemoryCanonical

/-- R25: every step keeps the lifecycle state one of the three, and the scheduler active only with a Watcher. -/
def Obligations.LifecycleLegalKept : Prop :=
  ∀ s t : State, s.LifecycleLegal → step s = .next t → t.LifecycleLegal

/-- R30: every step keeps the sync point set and not above the clock while playing, and no time above the clock. -/
def Obligations.AccumulatorBoundedKept : Prop :=
  ∀ s t : State, s.AccumulatorBounded → step s = .next t → t.AccumulatorBounded

/-- R132 and R134: before the first START every step keeps the latch clear, the compare value at CMP_INIT, no tick in
flight and nothing delivered. -/
def Obligations.WatcherConsistentKept : Prop :=
  ∀ s t : State, s.LifecycleLegal → s.WatcherConsistent → step s = .next t → t.WatcherConsistent

/-- R115 and R111: every step keeps a fatal address inside the window and invalid, and every delivered event's code
TIMER_IRQ_CODE; no step changes the parameters. -/
def Obligations.FatalAddressAndCodesKept : Prop :=
  ∀ s t : State, s.FatalInWindow → s.DeliveredCodes → step s = .next t →
    t.FatalInWindow ∧ t.DeliveredCodes ∧ t.cfg = s.cfg

/-! ### Liveness under fairness -/

/-- R110 with the weak fairness of R112: in every fair run a tick in flight completes. That a run takes an enabled step at
every moment is the model's reading (log 14). -/
def Obligations.InFlightTickCompletes : Prop :=
  ∀ (st : Nat → State) (op : Nat → Instr), Run st op → FairRun st op → ∀ n, ∃ m, n ≤ m ∧ (st m).tick = .idle

/-- R112: in a fair run in which from some moment the timer plays, both enables stay on, the compare value stays and the
reported time is at or above it, a latch that is set at that moment leads to a delivered event. What a run
and a fair run are is the model's reading (log 14). -/
def Obligations.ArmedConditionIsEventuallyRaised : Prop :=
  ∀ (st : Nat → State) (op : Nat → Instr) (n : Nat) (c : Time), Run st op → FairRun st op →
    (∀ m, n ≤ m → (st m).started = true ∧ (st m).playing = true ∧ (st m).tie = true ∧ (st m).gie = true ∧
      (st m).cmpValue = c ∧ c.toNat ≤ ((st m).reportedTime (st m).clk).toNat) →
    (st n).armed = true →
    ∃ m, n ≤ m ∧ (st (m + 1)).delivered = (st m).delivered ++ [(st n).cfg.irqCode] ∧ (st (m + 1)).armed = false
end

