-- ==== Sys2Proof/Laws/Decode.lean ====
section
/-! SUPPORT. The byte-order helpers and the lengths of operations. -/

namespace Sys2Proof

@[simp] theorem leBytes_length {w : Nat} (n : Nat) (v : BitVec w) : (leBytes n v).length = n := by
  induction n generalizing v with
  | zero => rfl
  | succ n ih => simp [leBytes, ih]

/-- Every bit of `v` below `8n` survives the trip through `n` bytes. -/
theorem getLsbD_ofLeBytes_leBytes {w : Nat} (n : Nat) (v : BitVec w) (k : Nat) (hk : k < 8 * n) :
    (ofLeBytes w (leBytes n v)).getLsbD k = v.getLsbD k := by
  induction n generalizing v k with
  | zero => omega
  | succ n ih =>
    by_cases hw : k < w
    · by_cases h8 : k < 8
      · simp [leBytes, ofLeBytes, hw, h8]
      · have hi := ih (v >>> 8) (k - 8) (by omega)
        simp only [leBytes, ofLeBytes, BitVec.getLsbD_or, BitVec.getLsbD_shiftLeft, hi, BitVec.getLsbD_ushiftRight,
          BitVec.getLsbD_setWidth]
        simp [hw, h8, (by omega : 8 + (k - 8) = k)]
    · rw [BitVec.getLsbD_of_ge _ _ (by omega), BitVec.getLsbD_of_ge _ _ (by omega)]

/-- The number whose bytes are those of `v` is `v`, where the bytes cover its width. -/
theorem ofLeBytes_leBytes {w : Nat} (n : Nat) (v : BitVec w) (h : w ≤ 8 * n) : ofLeBytes w (leBytes n v) = v := by
  apply BitVec.eq_of_getLsbD_eq
  intro k hk
  exact getLsbD_ofLeBytes_leBytes n v k (by omega)

/-- The two bytes of an operation word, put together again. -/
theorem leBytes_two (op : OpWord) :
    leBytes 2 op = [op.setWidth 8, (op >>> 8).setWidth 8] ∧ ((op >>> 8).setWidth 8 : Byte) ++ (op.setWidth 8 : Byte) = op := by
  refine ⟨rfl, ?_⟩
  apply BitVec.eq_of_getLsbD_eq
  intro k hk
  simp only [BitVec.getLsbD_append, BitVec.getLsbD_setWidth, BitVec.getLsbD_ushiftRight]
  by_cases h : k < 8
  · simp [h]
  · simp [h, (by omega : k - 8 < 8), (by omega : 8 + (k - 8) = k)]

/-! The offsets of the window registers, as numbers (R48). -/

@[simp] theorem offByte_offTimeLo : offByte offTimeLo = 0x18#8 := rfl
@[simp] theorem offByte_offTimeHi : offByte offTimeHi = 0x1C#8 := rfl
@[simp] theorem offByte_offCmpLo : offByte offCmpLo = 0x20#8 := rfl
@[simp] theorem offByte_offCmpHi : offByte offCmpHi = 0x24#8 := rfl
@[simp] theorem offWindowEnd_eq : offWindowEnd = 0x27 := rfl
@[simp] theorem windowBytes_eq : windowBytes = 16 := rfl

/-- The class, size and zero fields of a bus word do not depend on its offset. -/
theorem busOp_extract_high (classSize : OpWord) (off : BitVec 8) {start : Nat} (n : Nat) (h : 8 ≤ start) :
    (busOp classSize off).extractLsb' start n = classSize.extractLsb' start n := by
  apply BitVec.eq_of_getLsbD_eq
  intro k hk
  simp [busOp, BitVec.getLsbD_of_ge off (start + k) (by omega)]

/-- A bus word holds its offset in `op[7:0]` (R70). -/
theorem busOp_extract_offset {classSize : OpWord} (off : BitVec 8) (h : classSize.extractLsb' 0 8 = 0#8) :
    (busOp classSize off).extractLsb' 0 8 = off := by
  apply BitVec.eq_of_getLsbD_eq
  intro k hk
  have hc : (classSize.extractLsb' 0 8).getLsbD k = false := by rw [h]; simp
  simp only [BitVec.getLsbD_extractLsb', hk, decide_true, Bool.true_and, Nat.zero_add] at hc ⊢
  simp only [busOp, BitVec.getLsbD_or, hc, Bool.false_or, BitVec.getLsbD_setWidth]
  simp [(by omega : k < 16)]

/-- An operation's bytes and what follows them are the row it was split from. -/
theorem splitOp_append {bs op rest : List Byte} (h : splitOp bs = some (op, rest)) : op ++ rest = bs := by
  unfold splitOp at h
  split at h
  · simp only at h
    split at h
    · simp only [Option.some.injEq, Prod.mk.injEq] at h
      obtain ⟨rfl, rfl⟩ := h
      simp
    · cases h
  · cases h

/-- An operation is at least two bytes long, so taking one shortens the row. -/
theorem splitOp_length {bs op rest : List Byte} (h : splitOp bs = some (op, rest)) : rest.length + 2 ≤ bs.length := by
  unfold splitOp at h
  split at h
  · simp only at h
    split at h
    · simp only [Option.some.injEq, Prod.mk.injEq] at h
      obtain ⟨rfl, rfl⟩ := h
      simp
    · cases h
  · cases h

/-- A word and as many operand bytes as it has are split off exactly. -/
theorem splitOp_word (op : OpWord) (operand rest : List Byte) (h : operand.length = operandBytes op) :
    splitOp (leBytes 2 op ++ operand ++ rest) = some (leBytes 2 op ++ operand, rest) := by
  rw [(leBytes_two op).1]
  simp only [List.cons_append, List.nil_append, splitOp, (leBytes_two op).2, ← h]
  simp

end Sys2Proof
end

