-- ==== Sys2Proof/Laws/Memory.lean ====
section
/-! SUPPORT. The memory: reading after writing, and every operation keeps the canonical form. -/

namespace Sys2Proof.Machine

theorem Memory.wfFrom_mono {lo lo' : Nat} {m : Memory} (hle : lo' ≤ lo) (h : Memory.wfFrom lo m = true) :
    Memory.wfFrom lo' m = true := by
  cases m with
  | nil => rfl
  | cons c m =>
    obtain ⟨k, v⟩ := c
    simp only [Memory.wfFrom, Bool.and_eq_true, decide_eq_true_eq] at h ⊢
    exact ⟨⟨⟨by omega, h.1.1.2⟩, h.1.2⟩, h.2⟩

/-- An address below every listed one reads as unlisted. -/
theorem Memory.read_below {lo a : Nat} {m : Memory} (h : Memory.wfFrom lo m = true) (ha : a < lo) :
    Memory.read m a = Memory.unlisted := by
  induction m generalizing lo with
  | nil => rfl
  | cons c m ih =>
    obtain ⟨k, v⟩ := c
    simp only [Memory.wfFrom, Bool.and_eq_true, decide_eq_true_eq] at h
    simp only [Memory.read, if_neg (by omega : ¬ k = a)]
    exact ih h.2 (by omega)

theorem Memory.wfFrom_write {lo a : Nat} {m : Memory} (v : Byte) (h : Memory.wfFrom lo m = true) (hlo : lo ≤ a)
    (ha : a < addrSpace) : Memory.wfFrom lo (Memory.write m a v) = true := by
  induction m generalizing lo with
  | nil =>
    unfold Memory.write
    split
    · rfl
    · simp_all [Memory.wfFrom]
  | cons c m ih =>
    obtain ⟨k, w⟩ := c
    have hc := h
    simp only [Memory.wfFrom, Bool.and_eq_true, decide_eq_true_eq] at h
    unfold Memory.write
    split
    · split
      · exact hc
      · simp only [Memory.wfFrom, Bool.and_eq_true, decide_eq_true_eq]
        exact ⟨⟨⟨hlo, ha⟩, by assumption⟩, ⟨⟨by omega, h.1.1.2⟩, h.1.2⟩, h.2⟩
    · split
      · split
        · exact Memory.wfFrom_mono (by omega) h.2
        · subst a
          simp only [Memory.wfFrom, Bool.and_eq_true, decide_eq_true_eq]
          exact ⟨⟨⟨by omega, ha⟩, by assumption⟩, h.2⟩
      · simp only [Memory.wfFrom, Bool.and_eq_true, decide_eq_true_eq]
        exact ⟨⟨h.1.1, h.1.2⟩, ih h.2 (by omega)⟩

/-- A write keeps the canonical form. -/
theorem Memory.wf_write {a : Nat} {m : Memory} (v : Byte) (h : m.wf = true) (ha : a < addrSpace) :
    (m.write a v).wf = true :=
  Memory.wfFrom_write v h (Nat.zero_le a) ha

/-- A read after a write to the same address gives the byte written. -/
theorem Memory.read_write_same {lo a : Nat} {m : Memory} (v : Byte) (h : Memory.wfFrom lo m = true) :
    Memory.read (Memory.write m a v) a = v := by
  induction m generalizing lo with
  | nil =>
    unfold Memory.write
    split
    · simp_all [Memory.read]
    · simp [Memory.read]
  | cons c m ih =>
    obtain ⟨k, w⟩ := c
    have hc := h
    simp only [Memory.wfFrom, Bool.and_eq_true, decide_eq_true_eq] at h
    unfold Memory.write
    split
    · split
      · rw [Memory.read_below (lo := k) (by simp only [Memory.wfFrom, Bool.and_eq_true, decide_eq_true_eq]; exact ⟨⟨⟨le_refl k, h.1.1.2⟩, h.1.2⟩, h.2⟩) (by assumption)]
        exact Eq.symm ‹_›
      · simp [Memory.read]
    · split
      · split
        · rw [Memory.read_below h.2 (by omega)]; exact Eq.symm ‹_›
        · simp [Memory.read]
      · simp only [Memory.read, if_neg (by omega : ¬ k = a)]
        exact ih h.2

/-- A write leaves every other address alone. -/
theorem Memory.read_write_other {a b : Nat} {m : Memory} (v : Byte) (hne : b ≠ a) :
    Memory.read (Memory.write m a v) b = Memory.read m b := by
  induction m with
  | nil =>
    unfold Memory.write
    split
    · rfl
    · simp [Memory.read, Ne.symm hne]
  | cons c m ih =>
    obtain ⟨k, w⟩ := c
    unfold Memory.write
    split
    · split
      · rfl
      · simp [Memory.read, Ne.symm hne]
    · split
      · split
        · subst a; simp [Memory.read, Ne.symm hne]
        · subst a; simp [Memory.read, Ne.symm hne]
      · simp only [Memory.read, ih]

/-- Storing a list of bytes keeps the canonical form. -/
theorem Memory.wf_writeBytes {m : Memory} {a : Nat} {bs : List Byte} (h : m.wf = true)
    (ha : a + bs.length ≤ addrSpace) : (m.writeBytes a bs).wf = true := by
  induction bs generalizing m a with
  | nil => exact h
  | cons b bs ih =>
    simp only [List.length_cons] at ha
    exact ih (Memory.wf_write b h (by omega)) (by omega)

/-- A store of a list of bytes leaves every address outside it alone. -/
theorem Memory.read_writeBytes_outside {m : Memory} {a b : Nat} {bs : List Byte} (hb : b < a ∨ a + bs.length ≤ b) :
    (m.writeBytes a bs).read b = m.read b := by
  induction bs generalizing m a with
  | nil => rfl
  | cons c bs ih =>
    simp only [List.length_cons] at hb
    simp only [Memory.writeBytes]
    rw [ih (by omega), Memory.read_write_other c (by omega)]

/-- A read of the bytes just stored gives them back. -/
theorem Memory.readBytes_writeBytes {m : Memory} {a : Nat} {bs : List Byte} (h : m.wf = true)
    (ha : a + bs.length ≤ addrSpace) : (m.writeBytes a bs).readBytes a bs.length = bs := by
  induction bs generalizing m a with
  | nil => rfl
  | cons b bs ih =>
    simp only [List.length_cons] at ha
    simp only [Memory.writeBytes, List.length_cons, Memory.readBytes]
    rw [ih (Memory.wf_write b h (by omega)) (by omega), Memory.read_writeBytes_outside (by omega),
      Memory.read_write_same b h]

/-- A read of bytes that a store does not touch gives what it gave before. -/
theorem Memory.readBytes_writeBytes_outside {m : Memory} {a c : Nat} {bs : List Byte} {n : Nat}
    (hb : c + n ≤ a ∨ a + bs.length ≤ c) : (m.writeBytes a bs).readBytes c n = m.readBytes c n := by
  induction n generalizing c with
  | zero => rfl
  | succ n ih =>
    simp only [Memory.readBytes]
    rw [ih (by omega), Memory.read_writeBytes_outside (by omega)]

@[simp] theorem Memory.readBytes_length (m : Memory) (a n : Nat) : (m.readBytes a n).length = n := by
  induction n generalizing a with
  | zero => rfl
  | succ n ih => simp [Memory.readBytes, ih]

@[simp] theorem freeBytes_length (d n : Nat) : (freeBytes d n).length = n := by
  induction n generalizing d with
  | zero => rfl
  | succ n ih => simp [freeBytes, ih]

/-- A scrambled store keeps the canonical form. -/
theorem Memory.wf_scramble {c : Config} {m : Memory} {a : Nat} {bs : List Byte} (h : m.wf = true) :
    (m.scramble c a bs).wf = true := by
  induction bs generalizing m a with
  | nil => exact h
  | cons b bs ih =>
    simp only [Memory.scramble]
    apply ih
    split
    · rename_i hv
      simp only [Config.memValid, Bool.and_eq_true, decide_eq_true_eq] at hv
      exact Memory.wf_write b h hv.1
    · exact h

/-- A scrambled store leaves every address outside it alone. -/
theorem Memory.read_scramble_outside {c : Config} {m : Memory} {a b : Nat} {bs : List Byte}
    (hb : b < a ∨ a + bs.length ≤ b) : (m.scramble c a bs).read b = m.read b := by
  induction bs generalizing m a with
  | nil => rfl
  | cons x bs ih =>
    simp only [List.length_cons] at hb
    simp only [Memory.scramble]
    rw [ih (by omega)]
    split
    · exact Memory.read_write_other x (by omega)
    · rfl

/-- Storing zero where a canonical memory already reads zero changes nothing. -/
theorem Memory.write_unlisted_idem {lo a : Nat} {m : Memory} (h : Memory.wfFrom lo m = true)
    (hr : Memory.read m a = Memory.unlisted) : Memory.write m a Memory.unlisted = m := by
  induction m generalizing lo with
  | nil => simp [Memory.write]
  | cons c m ih =>
    obtain ⟨k, w⟩ := c
    simp only [Memory.wfFrom, Bool.and_eq_true, decide_eq_true_eq] at h
    unfold Memory.write
    split
    · simp
    · split
      · subst a
        simp only [Memory.read, if_true] at hr
        exact absurd hr h.1.2
      · simp only [Memory.read, if_neg (by omega : ¬ k = a)] at hr
        rw [ih h.2 hr]

end Sys2Proof.Machine
end

