-- ==== Sys2Proof/Laws/Operands.lean ====
section
/-! SUPPORT. The halves of a 64-bit value (R77, R78) and words in memory (R49, R60). -/

namespace Sys2Proof.Machine

/-- Bytes that meet TIME_LO or TIME_HI, in numbers (R100). -/
theorem touchesTime_iff {off n : Nat} : touchesTime off n = true ↔ off < 0x20 ∧ 0x18 < off + n := by
  simp only [touchesTime, decide_eq_true_eq, offTimeLo, offTimeHi, wordBytes]

/-- Bytes that meet the compare range, in numbers (R99). -/
theorem touchesCompare_iff {off n : Nat} : touchesCompare off n = true ↔ off < 0x28 ∧ 0x20 < off + n := by
  simp only [touchesCompare, decide_eq_true_eq, offCmpLo, cmpRangeBytes]

/-- The pair published for a time gives the time back (R78). -/
@[simp] theorem joinHalves_highHalf_lowHalf (t : Time) : joinHalves (highHalf t) (lowHalf t) = t := by
  apply BitVec.eq_of_getLsbD_eq
  intro k hk
  simp only [joinHalves, highHalf, lowHalf, BitVec.getLsbD_or, BitVec.getLsbD_shiftLeft, BitVec.getLsbD_setWidth,
    BitVec.getLsbD_extractLsb']
  by_cases h : k < 32
  · simp [h, hk]
  · simp [h, hk, (by omega : k - 32 < 32), (by omega : 32 + (k - 32) = k), (by omega : k - 32 < 64)]

@[simp] theorem highHalf_joinHalves (hi lo : Word) : highHalf (joinHalves hi lo) = hi := by
  apply BitVec.eq_of_getLsbD_eq
  intro k hk
  simp only [joinHalves, highHalf, BitVec.getLsbD_or, BitVec.getLsbD_shiftLeft, BitVec.getLsbD_setWidth,
    BitVec.getLsbD_extractLsb']
  simp [hk, (by omega : 32 + k < 64), (by omega : k < 64)]

@[simp] theorem lowHalf_joinHalves (hi lo : Word) : lowHalf (joinHalves hi lo) = lo := by
  apply BitVec.eq_of_getLsbD_eq
  intro k hk
  simp only [joinHalves, lowHalf, BitVec.getLsbD_or, BitVec.getLsbD_shiftLeft, BitVec.getLsbD_setWidth,
    BitVec.getLsbD_extractLsb']
  simp [hk, (by omega : k < 64)]

/-- R77: a store to the low half keeps the high half. -/
theorem setLowHalf_eq (c : Time) (w : Word) : setLowHalf c w = joinHalves (highHalf c) w := by
  apply BitVec.eq_of_getLsbD_eq
  intro k hk
  have hm : (0xFFFFFFFF00000000#64).getLsbD k = decide (32 ≤ k) := by interval_cases k <;> rfl
  simp only [setLowHalf, joinHalves, highHalf, BitVec.getLsbD_or, BitVec.getLsbD_and, BitVec.getLsbD_shiftLeft,
    BitVec.getLsbD_setWidth, BitVec.getLsbD_extractLsb', hm]
  by_cases h : k < 32
  · simp [h, hk]
  · simp [h, hk, (by omega : k - 32 < 32), (by omega : 32 + (k - 32) = k), (by omega : k - 32 < 64), (by omega : 32 ≤ k)]

/-- R77: a store to the high half keeps the low half. -/
theorem setHighHalf_eq (c : Time) (w : Word) : setHighHalf c w = joinHalves w (lowHalf c) := by
  apply BitVec.eq_of_getLsbD_eq
  intro k hk
  have hm : (0x00000000FFFFFFFF#64).getLsbD k = decide (k < 32) := by interval_cases k <;> rfl
  simp only [setHighHalf, joinHalves, lowHalf, BitVec.getLsbD_or, BitVec.getLsbD_and, BitVec.getLsbD_shiftLeft,
    BitVec.getLsbD_setWidth, BitVec.getLsbD_extractLsb', hm]
  by_cases h : k < 32
  · simp [h, hk]
  · simp [h, hk]

/-- A word just stored reads back. -/
theorem Memory.readWord_writeBytes {m : Memory} {a : Nat} (w : Word) (h : m.wf = true) (ha : a + 4 ≤ addrSpace) :
    (m.writeBytes a (leBytes 4 w)).readWord a = w := by
  have hb := Memory.readBytes_writeBytes (bs := leBytes 4 w) h (by simpa using ha)
  simp only [leBytes_length] at hb
  simp [Memory.readWord, hb, ofLeBytes_leBytes]

/-- A word that a store does not touch reads as before. -/
theorem Memory.readWord_writeBytes_outside {m : Memory} {a c : Nat} {bs : List Byte}
    (h : c + 4 ≤ a ∨ a + bs.length ≤ c) : (m.writeBytes a bs).readWord c = m.readWord c := by
  simp only [Memory.readWord, Memory.readBytes_writeBytes_outside h]

end Sys2Proof.Machine
end

