-- ==== Sys2Proof/Laws/State.lean ====
section
/-! SUPPORT. One lemma per field per named update of the state. -/

namespace Sys2Proof.Machine

@[simp] theorem State.refuse_cfg (s : State) : s.refuse.cfg = s.cfg := rfl
@[simp] theorem State.refuse_started (s : State) : s.refuse.started = s.started := rfl
@[simp] theorem State.refuse_playing (s : State) : s.refuse.playing = s.playing := rfl
@[simp] theorem State.refuse_elapsed (s : State) : s.refuse.elapsed = s.elapsed := rfl
@[simp] theorem State.refuse_sync (s : State) : s.refuse.sync = s.sync := rfl
@[simp] theorem State.refuse_cmpValue (s : State) : s.refuse.cmpValue = s.cmpValue := rfl
@[simp] theorem State.refuse_armed (s : State) : s.refuse.armed = s.armed := rfl
@[simp] theorem State.refuse_watcherOn (s : State) : s.refuse.watcherOn = s.watcherOn := rfl
@[simp] theorem State.refuse_host (s : State) : s.refuse.host = s.host := rfl
@[simp] theorem State.refuse_tick (s : State) : s.refuse.tick = s.tick := rfl
@[simp] theorem State.refuse_fatal (s : State) : s.refuse.fatal = s.fatal := rfl
@[simp] theorem State.refuse_refused (s : State) : s.refuse.refused = true := rfl
@[simp] theorem State.refuse_mem (s : State) : s.refuse.mem = s.mem := rfl
@[simp] theorem State.refuse_clk (s : State) : s.refuse.clk = s.clk := rfl
@[simp] theorem State.refuse_tie (s : State) : s.refuse.tie = s.tie := rfl
@[simp] theorem State.refuse_gie (s : State) : s.refuse.gie = s.gie := rfl
@[simp] theorem State.refuse_delivered (s : State) : s.refuse.delivered = s.delivered := rfl
@[simp] theorem State.refuse_loaded (s : State) : s.refuse.loaded = s.loaded := rfl
@[simp] theorem State.refuse_trace (s : State) : s.refuse.trace = s.trace := rfl
@[simp] theorem State.refuse_draws (s : State) : s.refuse.draws = s.draws := rfl

@[simp] theorem State.raiseFatal_cfg (s : State) (a : Nat) : (s.raiseFatal a).cfg = s.cfg := rfl
@[simp] theorem State.raiseFatal_started (s : State) (a : Nat) : (s.raiseFatal a).started = s.started := rfl
@[simp] theorem State.raiseFatal_playing (s : State) (a : Nat) : (s.raiseFatal a).playing = s.playing := rfl
@[simp] theorem State.raiseFatal_elapsed (s : State) (a : Nat) : (s.raiseFatal a).elapsed = s.elapsed := rfl
@[simp] theorem State.raiseFatal_sync (s : State) (a : Nat) : (s.raiseFatal a).sync = s.sync := rfl
@[simp] theorem State.raiseFatal_cmpValue (s : State) (a : Nat) : (s.raiseFatal a).cmpValue = s.cmpValue := rfl
@[simp] theorem State.raiseFatal_armed (s : State) (a : Nat) : (s.raiseFatal a).armed = s.armed := rfl
@[simp] theorem State.raiseFatal_watcherOn (s : State) (a : Nat) : (s.raiseFatal a).watcherOn = s.watcherOn := rfl
@[simp] theorem State.raiseFatal_host (s : State) (a : Nat) : (s.raiseFatal a).host = s.host := rfl
@[simp] theorem State.raiseFatal_tick (s : State) (a : Nat) : (s.raiseFatal a).tick = s.tick := rfl
@[simp] theorem State.raiseFatal_fatal (s : State) (a : Nat) : (s.raiseFatal a).fatal = some a := rfl
@[simp] theorem State.raiseFatal_refused (s : State) (a : Nat) : (s.raiseFatal a).refused = s.refused := rfl
@[simp] theorem State.raiseFatal_mem (s : State) (a : Nat) : (s.raiseFatal a).mem = s.mem := rfl
@[simp] theorem State.raiseFatal_clk (s : State) (a : Nat) : (s.raiseFatal a).clk = s.clk := rfl
@[simp] theorem State.raiseFatal_tie (s : State) (a : Nat) : (s.raiseFatal a).tie = s.tie := rfl
@[simp] theorem State.raiseFatal_gie (s : State) (a : Nat) : (s.raiseFatal a).gie = s.gie := rfl
@[simp] theorem State.raiseFatal_delivered (s : State) (a : Nat) : (s.raiseFatal a).delivered = s.delivered := rfl
@[simp] theorem State.raiseFatal_loaded (s : State) (a : Nat) : (s.raiseFatal a).loaded = s.loaded := rfl
@[simp] theorem State.raiseFatal_trace (s : State) (a : Nat) : (s.raiseFatal a).trace = s.trace := rfl
@[simp] theorem State.raiseFatal_draws (s : State) (a : Nat) : (s.raiseFatal a).draws = s.draws := rfl

@[simp] theorem State.deliver_cfg (s : State) (c : Nat) : (s.deliver c).cfg = s.cfg := rfl
@[simp] theorem State.deliver_started (s : State) (c : Nat) : (s.deliver c).started = s.started := rfl
@[simp] theorem State.deliver_playing (s : State) (c : Nat) : (s.deliver c).playing = s.playing := rfl
@[simp] theorem State.deliver_elapsed (s : State) (c : Nat) : (s.deliver c).elapsed = s.elapsed := rfl
@[simp] theorem State.deliver_sync (s : State) (c : Nat) : (s.deliver c).sync = s.sync := rfl
@[simp] theorem State.deliver_cmpValue (s : State) (c : Nat) : (s.deliver c).cmpValue = s.cmpValue := rfl
@[simp] theorem State.deliver_armed (s : State) (c : Nat) : (s.deliver c).armed = s.armed := rfl
@[simp] theorem State.deliver_watcherOn (s : State) (c : Nat) : (s.deliver c).watcherOn = s.watcherOn := rfl
@[simp] theorem State.deliver_host (s : State) (c : Nat) : (s.deliver c).host = s.host := rfl
@[simp] theorem State.deliver_tick (s : State) (c : Nat) : (s.deliver c).tick = s.tick := rfl
@[simp] theorem State.deliver_fatal (s : State) (c : Nat) : (s.deliver c).fatal = s.fatal := rfl
@[simp] theorem State.deliver_refused (s : State) (c : Nat) : (s.deliver c).refused = s.refused := rfl
@[simp] theorem State.deliver_mem (s : State) (c : Nat) : (s.deliver c).mem = s.mem := rfl
@[simp] theorem State.deliver_clk (s : State) (c : Nat) : (s.deliver c).clk = s.clk := rfl
@[simp] theorem State.deliver_tie (s : State) (c : Nat) : (s.deliver c).tie = s.tie := rfl
@[simp] theorem State.deliver_gie (s : State) (c : Nat) : (s.deliver c).gie = s.gie := rfl
@[simp] theorem State.deliver_delivered (s : State) (c : Nat) : (s.deliver c).delivered = s.delivered ++ [c] := rfl
@[simp] theorem State.deliver_loaded (s : State) (c : Nat) : (s.deliver c).loaded = s.loaded := rfl
@[simp] theorem State.deliver_trace (s : State) (c : Nat) : (s.deliver c).trace = s.trace := rfl
@[simp] theorem State.deliver_draws (s : State) (c : Nat) : (s.deliver c).draws = s.draws := rfl

@[simp] theorem State.zeroTime_cfg (s : State) : s.zeroTime.cfg = s.cfg := rfl
@[simp] theorem State.zeroTime_started (s : State) : s.zeroTime.started = s.started := rfl
@[simp] theorem State.zeroTime_playing (s : State) : s.zeroTime.playing = s.playing := rfl
@[simp] theorem State.zeroTime_elapsed (s : State) : s.zeroTime.elapsed = 0#64 := rfl
@[simp] theorem State.zeroTime_sync (s : State) : s.zeroTime.sync = some s.clk := rfl
@[simp] theorem State.zeroTime_cmpValue (s : State) : s.zeroTime.cmpValue = s.cmpValue := rfl
@[simp] theorem State.zeroTime_armed (s : State) : s.zeroTime.armed = s.armed := rfl
@[simp] theorem State.zeroTime_watcherOn (s : State) : s.zeroTime.watcherOn = s.watcherOn := rfl
@[simp] theorem State.zeroTime_host (s : State) : s.zeroTime.host = .zeroLo := rfl
@[simp] theorem State.zeroTime_tick (s : State) : s.zeroTime.tick = s.tick := rfl
@[simp] theorem State.zeroTime_fatal (s : State) : s.zeroTime.fatal = s.fatal := rfl
@[simp] theorem State.zeroTime_refused (s : State) : s.zeroTime.refused = s.refused := rfl
@[simp] theorem State.zeroTime_mem (s : State) : s.zeroTime.mem = s.mem := rfl
@[simp] theorem State.zeroTime_clk (s : State) : s.zeroTime.clk = s.clk := rfl
@[simp] theorem State.zeroTime_tie (s : State) : s.zeroTime.tie = s.tie := rfl
@[simp] theorem State.zeroTime_gie (s : State) : s.zeroTime.gie = s.gie := rfl
@[simp] theorem State.zeroTime_delivered (s : State) : s.zeroTime.delivered = s.delivered := rfl
@[simp] theorem State.zeroTime_loaded (s : State) : s.zeroTime.loaded = s.loaded := rfl
@[simp] theorem State.zeroTime_trace (s : State) : s.zeroTime.trace = s.trace := rfl
@[simp] theorem State.zeroTime_draws (s : State) : s.zeroTime.draws = s.draws := rfl

end Sys2Proof.Machine
end

