-- ==== Sys2Proof/Laws/Ops.lean ====
section
/-! SUPPORT. For each shared operation, everything it can do. -/

namespace Sys2Proof

/-- No byte of a range is invalid exactly where each is MEM_VALID. -/
theorem Config.firstInvalid_none {c : Config} {a n : Nat} :
    c.firstInvalid a n = none ↔ ∀ b, a ≤ b → b < a + n → c.memValid b = true := by
  induction n generalizing a with
  | zero => simp [Config.firstInvalid]; intros; omega
  | succ n ih =>
    simp only [Config.firstInvalid]
    split
    · rename_i hv
      rw [ih]
      constructor
      · intro h b h1 h2
        by_cases hb : b = a
        · subst hb; exact hv
        · exact h b (by omega) (by omega)
      · intro h b h1 h2
        exact h b (by omega) (by omega)
    · rename_i hv
      constructor
      · intro h; cases h
      · intro h; exact absurd (h a (le_refl a) (by omega)) hv

/-- The first invalid byte is in the range, is invalid, and every byte before it is valid. -/
theorem Config.firstInvalid_some {c : Config} {a n b : Nat} (h : c.firstInvalid a n = some b) :
    a ≤ b ∧ b < a + n ∧ c.memValid b = false ∧ ∀ x, a ≤ x → x < b → c.memValid x = true := by
  induction n generalizing a with
  | zero => cases h
  | succ n ih =>
    simp only [Config.firstInvalid] at h
    split at h
    · rename_i hv
      obtain ⟨h1, h2, h3, h4⟩ := ih h
      refine ⟨by omega, by omega, h3, fun x hx1 hx2 => ?_⟩
      by_cases hx : x = a
      · subst hx; exact hv
      · exact h4 x (by omega) hx2
    · rename_i hv
      cases h
      exact ⟨le_refl _, by omega, by simpa using hv, fun x hx1 hx2 => by omega⟩

/-- What makes a byte the first invalid one of a range. -/
theorem Config.firstInvalid_eq_some {c : Config} {a n b : Nat} (h1 : a ≤ b) (h2 : b < a + n) (h3 : c.memValid b = false)
    (h4 : ∀ x, a ≤ x → x < b → c.memValid x = true) : c.firstInvalid a n = some b := by
  cases h : c.firstInvalid a n with
  | none =>
    rw [Config.firstInvalid_none] at h
    rw [h b h1 h2] at h3
    cases h3
  | some x =>
    obtain ⟨g1, g2, g3, g4⟩ := Config.firstInvalid_some h
    by_cases hx : x < b
    · rw [h4 x g1 hx] at g3; cases g3
    · by_cases hb : b < x
      · rw [g4 b h1 hb] at h3; cases h3
      · congr 1; omega

/-- A part of a valid range is valid. -/
theorem Config.firstInvalid_none_sub {c : Config} {a n b m : Nat} (h : c.firstInvalid a n = none) (h1 : a ≤ b)
    (h2 : b + m ≤ a + n) : c.firstInvalid b m = none := by
  rw [Config.firstInvalid_none] at h ⊢
  exact fun x hx1 hx2 => h x (by omega) (by omega)

/-- A byte that is MEM_VALID is inside the address space. -/
theorem Config.memValid_lt {c : Config} {a : Nat} (h : c.memValid a = true) : a < addrSpace := by
  simp only [Config.memValid, Bool.and_eq_true, decide_eq_true_eq] at h
  exact h.1

/-- A valid range lies inside the address space. -/
theorem Config.firstInvalid_none_lt {c : Config} {a n : Nat} (h : c.firstInvalid a n = none) (hn : 0 < n) :
    a + n ≤ addrSpace := by
  have := Config.memValid_lt (Config.firstInvalid_none.1 h (a + n - 1) (by omega) (by omega))
  omega

end Sys2Proof

namespace Sys2Proof.Machine

/-- A step answers a next state exactly where no fatal error has occurred. -/
theorem State.act_eq_next {s t u : State} : s.act t = .next u ↔ s.fatal = none ∧ t = u := by
  unfold State.act
  cases s.fatal with
  | none => simp
  | some a => simp

theorem State.act_of_fatal_none {s : State} (h : s.fatal = none) (t : State) : s.act t = .next t :=
  State.act_eq_next.2 ⟨h, rfl⟩

/-- Everything `WriteWord` can do (R52). -/
theorem State.writeWord_cases (s : State) (a : Nat) (v : Word) (done : State → State) :
    (∃ b, s.cfg.firstInvalid a wordBytes = some b ∧ s.writeWord a v done = s.raiseFatal b) ∨
    (s.cfg.firstInvalid a wordBytes = none ∧
      s.writeWord a v done = done { s with mem := s.mem.writeBytes a (leBytes wordBytes v) }) := by
  unfold State.writeWord
  cases h : s.cfg.firstInvalid a wordBytes with
  | none => exact .inr ⟨rfl, rfl⟩
  | some b => exact .inl ⟨b, rfl, rfl⟩

/-- A software store changes the memory and the draws alone. -/
theorem State.memStore_eq (s : State) (a n : Nat) (v : Word) :
    s.memStore a n v = { s with mem := (s.memStore a n v).mem, draws := (s.memStore a n v).draws } := by
  unfold State.memStore
  cases s.cfg.firstInvalid a n <;> rfl

@[simp] theorem State.memStore_cfg (s : State) (a n : Nat) (v : Word) : (s.memStore a n v).cfg = s.cfg := by
  rw [State.memStore_eq]
@[simp] theorem State.memStore_started (s : State) (a n : Nat) (v : Word) : (s.memStore a n v).started = s.started := by
  rw [State.memStore_eq]
@[simp] theorem State.memStore_playing (s : State) (a n : Nat) (v : Word) : (s.memStore a n v).playing = s.playing := by
  rw [State.memStore_eq]
@[simp] theorem State.memStore_elapsed (s : State) (a n : Nat) (v : Word) : (s.memStore a n v).elapsed = s.elapsed := by
  rw [State.memStore_eq]
@[simp] theorem State.memStore_sync (s : State) (a n : Nat) (v : Word) : (s.memStore a n v).sync = s.sync := by
  rw [State.memStore_eq]
@[simp] theorem State.memStore_cmpValue (s : State) (a n : Nat) (v : Word) : (s.memStore a n v).cmpValue = s.cmpValue := by
  rw [State.memStore_eq]
@[simp] theorem State.memStore_armed (s : State) (a n : Nat) (v : Word) : (s.memStore a n v).armed = s.armed := by
  rw [State.memStore_eq]
@[simp] theorem State.memStore_watcherOn (s : State) (a n : Nat) (v : Word) : (s.memStore a n v).watcherOn = s.watcherOn := by
  rw [State.memStore_eq]
@[simp] theorem State.memStore_host (s : State) (a n : Nat) (v : Word) : (s.memStore a n v).host = s.host := by
  rw [State.memStore_eq]
@[simp] theorem State.memStore_tick (s : State) (a n : Nat) (v : Word) : (s.memStore a n v).tick = s.tick := by
  rw [State.memStore_eq]
@[simp] theorem State.memStore_fatal (s : State) (a n : Nat) (v : Word) : (s.memStore a n v).fatal = s.fatal := by
  rw [State.memStore_eq]
@[simp] theorem State.memStore_refused (s : State) (a n : Nat) (v : Word) : (s.memStore a n v).refused = s.refused := by
  rw [State.memStore_eq]
@[simp] theorem State.memStore_clk (s : State) (a n : Nat) (v : Word) : (s.memStore a n v).clk = s.clk := by
  rw [State.memStore_eq]
@[simp] theorem State.memStore_tie (s : State) (a n : Nat) (v : Word) : (s.memStore a n v).tie = s.tie := by
  rw [State.memStore_eq]
@[simp] theorem State.memStore_gie (s : State) (a n : Nat) (v : Word) : (s.memStore a n v).gie = s.gie := by
  rw [State.memStore_eq]
@[simp] theorem State.memStore_delivered (s : State) (a n : Nat) (v : Word) : (s.memStore a n v).delivered = s.delivered := by
  rw [State.memStore_eq]
@[simp] theorem State.memStore_loaded (s : State) (a n : Nat) (v : Word) : (s.memStore a n v).loaded = s.loaded := by
  rw [State.memStore_eq]
@[simp] theorem State.memStore_trace (s : State) (a n : Nat) (v : Word) : (s.memStore a n v).trace = s.trace := by
  rw [State.memStore_eq]

/-- A software store inside the memory region. -/
theorem State.memStore_valid {s : State} {a n : Nat} (v : Word) (h : s.cfg.firstInvalid a n = none) :
    s.memStore a n v = { s with mem := s.mem.writeBytes a (leBytes n v) } := by
  simp [State.memStore, h]

/-- A software store leaves every byte outside it alone. -/
theorem State.memStore_read_outside (s : State) (a n : Nat) (v : Word) {b : Nat} (hb : b < a ∨ a + n ≤ b) :
    (s.memStore a n v).mem.read b = s.mem.read b := by
  unfold State.memStore
  cases s.cfg.firstInvalid a n with
  | none => exact Memory.read_writeBytes_outside (by simpa using hb)
  | some _ => exact Memory.read_scramble_outside (by simpa using hb)

/-- A software store of at least one byte keeps the canonical form. -/
theorem State.memStore_wf (s : State) {a n : Nat} (v : Word) (hn : 0 < n) (h : s.mem.wf = true) :
    (s.memStore a n v).mem.wf = true := by
  unfold State.memStore
  cases hi : s.cfg.firstInvalid a n with
  | none => exact Memory.wf_writeBytes h (by simpa using Config.firstInvalid_none_lt hi hn)
  | some _ => exact Memory.wf_scramble h

/-- A read notification does nothing (R55, R97). -/
theorem State.notify_read (s : State) (a n : Nat) (v : Word) : s.notify ⟨.read, a, n, v⟩ = s := by
  unfold State.notify State.watch
  split <;> simp

/-- What a load is answered with is recorded, and the report of it does nothing. -/
theorem State.returnLoad_eq (s : State) (a n : Nat) (bs : List Byte) :
    s.returnLoad a n bs = { s with loaded := s.loaded ++ [ofLeBytes 32 bs] } :=
  State.notify_read _ a n _

/-- A word store to TIMECMP_LO (R95). -/
theorem State.storeCompare_lo (s : State) (w : Word) :
    s.storeCompare offCmpLo w =
      if s.watcherOn then
        { s.memStore (s.cfg.addr offCmpLo) wordBytes w with cmpValue := setLowHalf s.cmpValue w, armed := true }
      else s.memStore (s.cfg.addr offCmpLo) wordBytes w := by
  unfold State.storeCompare State.notify State.watch
  rw [State.memStore_eq]
  cases s.watcherOn <;> simp [cmpRangeBytes]

/-- A word store to TIMECMP_HI (R96). -/
theorem State.storeCompare_hi (s : State) (w : Word) :
    s.storeCompare offCmpHi w =
      if s.watcherOn then
        { s.memStore (s.cfg.addr offCmpHi) wordBytes w with cmpValue := setHighHalf s.cmpValue w, armed := true }
      else s.memStore (s.cfg.addr offCmpHi) wordBytes w := by
  unfold State.storeCompare State.notify State.watch
  rw [State.memStore_eq]
  cases s.watcherOn <;> simp [cmpRangeBytes, Config.addr, offCmpLo, offCmpHi]

/-- Everything a general store can do (R94). -/
theorem State.store_cases (s : State) (off n : Nat) (v : Word) :
    ((touchesTime off n = true ∨ touchesCompare off n = true ∧ ¬ (n = wordBytes ∧ (off = offCmpLo ∨ off = offCmpHi))) ∧
        s.store off n v = s.refuse) ∨
    (n = wordBytes ∧ off = offCmpLo ∧ s.store off n v = s.storeCompare offCmpLo v) ∨
    (n = wordBytes ∧ off = offCmpHi ∧ s.store off n v = s.storeCompare offCmpHi v) ∨
    (touchesTime off n = false ∧ touchesCompare off n = false ∧ s.store off n v = s.memStore (s.cfg.addr off) n v) := by
  unfold State.store
  cases ht : touchesTime off n <;> cases hc : touchesCompare off n <;> simp
  by_cases h1 : n = wordBytes ∧ off = offCmpLo
  · simp [h1]
  · by_cases h2 : n = wordBytes ∧ off = offCmpHi
    · simp [h2, offCmpLo, offCmpHi]
    · simp only [if_neg h1, if_neg h2]
      left
      refine ⟨?_, trivial⟩
      intro hn
      exact ⟨fun h => h1 ⟨hn, h⟩, fun h => h2 ⟨hn, h⟩⟩

/-- Everything a load can do (R97): one value is returned, of the memory's bytes where all are in the region. -/
theorem State.load_eq (s : State) (off n : Nat) :
    (s.cfg.firstInvalid (s.cfg.addr off) n = none ∧
      s.load off n = { s with loaded := s.loaded ++ [ofLeBytes 32 (s.mem.readBytes (s.cfg.addr off) n)] }) ∨
    (∃ b, s.cfg.firstInvalid (s.cfg.addr off) n = some b ∧
      s.load off n = { s with loaded := s.loaded ++ [ofLeBytes 32 (freeBytes s.draws n)], draws := s.draws + n }) := by
  unfold State.load
  simp only [State.returnLoad_eq]
  cases h : s.cfg.firstInvalid (s.cfg.addr off) n with
  | none => exact .inl ⟨rfl, rfl⟩
  | some b => exact .inr ⟨b, rfl, rfl⟩

end Sys2Proof.Machine
end

