-- ==== Sys2Proof/Laws/Exec.lean ====
section
/-! SUPPORT. Said once: everything a step can do. -/

namespace Sys2Proof.Machine

/-- What operation `i` can make of state `s`. `same` covers a step that is not enabled and one without an effect. -/
inductive Effect (s : State) : Instr → State → Prop where
  | same (i : Instr) : Effect s i s
  | started (h : s.started = false) (hw : s.watcherOn = true) : Effect s .start { s with started := true }
  | created (h : s.started = false) (hw : s.watcherOn = false)
      (hv : s.cfg.firstInvalid (s.cfg.addr offCmpLo) cmpRangeBytes = none) :
      Effect s .start { s with watcherOn := true, started := true }
  | startFatal (a : Nat) (h : s.started = false) (hw : s.watcherOn = false)
      (hv : s.cfg.firstInvalid (s.cfg.addr offCmpLo) cmpRangeBytes = some a) : Effect s .start (s.raiseFatal a)
  | play (h : s.started = true) (hp : s.playing = false) :
      Effect s .play { s with sync := some s.clk, playing := true }
  | pause (hp : s.playing = true) :
      Effect s .pause { s with elapsed := s.elapsed + (s.clk - s.syncPoint), playing := false }
  | stop : Effect s .stop { s.zeroTime with playing := false, started := false }
  | reset : Effect s .reset s.zeroTime
  | zeroFatal (i : Instr) (a off : Nat) (hi : (i = .hZlo ∧ off = offTimeLo) ∨ (i = .hZhi ∧ off = offTimeHi))
      (hv : s.cfg.firstInvalid (s.cfg.addr off) wordBytes = some a) : Effect s i (s.raiseFatal a)
  | zeroLo (hv : s.cfg.firstInvalid (s.cfg.addr offTimeLo) wordBytes = none) (hh : s.host = .zeroLo) :
      Effect s .hZlo { s with mem := s.mem.writeBytes (s.cfg.addr offTimeLo) (leBytes wordBytes 0#32), host := .zeroHi }
  | zeroHi (hv : s.cfg.firstInvalid (s.cfg.addr offTimeHi) wordBytes = none) (hh : s.host = .zeroHi) :
      Effect s .hZhi { s with mem := s.mem.writeBytes (s.cfg.addr offTimeHi) (leBytes wordBytes 0#32), host := .ready }
  | sampled (h : s.started = true) (ht : s.tick = .idle) (hp : s.playing = true) :
      Effect s .tick { s with tick := .wLo (s.reportedTime s.clk) }
  | tickFatal (i : Instr) (a off : Nat) (hi : (i = .tWlo ∧ off = offTimeLo) ∨ (i = .tWhi ∧ off = offTimeHi))
      (hv : s.cfg.firstInvalid (s.cfg.addr off) wordBytes = some a) : Effect s i (s.raiseFatal a)
  | wroteLo (t : Time) (ht : s.tick = .wLo t) (hv : s.cfg.firstInvalid (s.cfg.addr offTimeLo) wordBytes = none) :
      Effect s .tWlo
        { s with mem := s.mem.writeBytes (s.cfg.addr offTimeLo) (leBytes wordBytes (lowHalf t)), tick := .wHi t }
  | wroteHi (t : Time) (ht : s.tick = .wHi t) (hv : s.cfg.firstInvalid (s.cfg.addr offTimeHi) wordBytes = none) :
      Effect s .tWhi
        { s with mem := s.mem.writeBytes (s.cfg.addr offTimeHi) (leBytes wordBytes (highHalf t)), tick := .eval t }
  | fired (t : Time) (ht : s.tick = .eval t) (he : evaluate t s.cmpValue s.armed s.tie s.gie = true) :
      Effect s .tEval { s with delivered := s.delivered ++ [s.cfg.irqCode], armed := false, tick := .idle }
  | notFired (t : Time) (ht : s.tick = .eval t) (he : evaluate t s.cmpValue s.armed s.tie s.gie = false) :
      Effect s .tEval { s with tick := .idle }
  | refused (i : Instr) (hi : isStore i = true) (hc : isCompareStore i = false) : Effect s i s.refuse
  | stored (i : Instr) (a n : Nat) (v : Word) (hi : isStore i = true)
      (hn : 0 < n) (ha : storedBytes i = (a, n)) (ht : a + n ≤ offTimeLo ∨ offCmpLo ≤ a)
      (hw : isCompareStore i = false ∨ s.watcherOn = false) : Effect s i (s.memStore (s.cfg.addr a) n v)
  | watchedLo (i : Instr) (v : Word) (hi : isCompareStore i = true) (hs : storedBytes i = (offCmpLo, wordBytes))
      (hw : s.watcherOn = true) :
      Effect s i
        { s.memStore (s.cfg.addr offCmpLo) wordBytes v with cmpValue := setLowHalf s.cmpValue v, armed := true }
  | watchedHi (i : Instr) (v : Word) (hi : isCompareStore i = true) (hs : storedBytes i = (offCmpHi, wordBytes))
      (hw : s.watcherOn = true) :
      Effect s i
        { s.memStore (s.cfg.addr offCmpHi) wordBytes v with cmpValue := setHighHalf s.cmpValue v, armed := true }
  | loaded (i : Instr) (v : Word) (d : Nat) (hi : isLoad i = true) :
      Effect s i { s with loaded := s.loaded ++ [v], draws := d }
  | clkSet (c : Time) (h : s.clk.toNat ≤ c.toNat) : Effect s (.clkSet c) { s with clk := c }
  | csrSet (a b : Bool) : Effect s (.csrSet a b) { s with tie := a, gie := b }

/-- A general store is one of the store effects. -/
theorem Effect.store {s : State} {i : Instr} {off n : Nat} {v : Word} (hi : isStore i = true) (hn : 0 < n)
    (hs : storedBytes i = (off, n) ∨ touchesTime off n = true)
    (hc : isCompareStore i = true ↔ n = wordBytes ∧ (off = offCmpLo ∨ off = offCmpHi)) :
    Effect s i (s.store off n v) := by
  rcases State.store_cases s off n v with ⟨h, he⟩ | ⟨h1, h2, he⟩ | ⟨h1, h2, he⟩ | ⟨h1, h2, he⟩ <;> rw [he]
  · refine .refused i hi ?_
    rw [Bool.eq_false_iff]
    intro hcs
    obtain ⟨e1, e2⟩ := hc.1 hcs
    rcases h with h | h
    · subst e1
      simp only [touchesTime, decide_eq_true_eq, offTimeLo, offTimeHi, offCmpLo, offCmpHi, wordBytes] at h e2
      omega
    · exact h.2 ⟨e1, e2⟩
  · subst h1 h2
    have hs' := hs.resolve_right (by decide)
    rw [State.storeCompare_lo]
    cases hw : s.watcherOn with
    | true => exact .watchedLo i v (hc.2 ⟨rfl, .inl rfl⟩) hs' hw
    | false => exact .stored i _ _ v hi hn hs' (.inr (by decide)) (.inr hw)
  · subst h1 h2
    have hs' := hs.resolve_right (by decide)
    rw [State.storeCompare_hi]
    cases hw : s.watcherOn with
    | true => exact .watchedHi i v (hc.2 ⟨rfl, .inr rfl⟩) hs' hw
    | false => exact .stored i _ _ v hi hn hs' (.inr (by decide)) (.inr hw)
  · have hs' := hs.resolve_right (by simp [h1])
    refine .stored i off n v hi hn hs' ?_ (.inl ?_)
    · simp only [touchesTime, touchesCompare, decide_eq_false_iff_not, offTimeLo, offTimeHi, offCmpLo, cmpRangeBytes,
        wordBytes] at h1 h2 ⊢
      omega
    · rw [Bool.eq_false_iff]
      intro hcs
      obtain ⟨e1, e2⟩ := hc.1 hcs
      subst e1
      simp only [touchesCompare, decide_eq_false_iff_not, offCmpLo, offCmpHi, cmpRangeBytes, wordBytes] at h2 e2
      omega

/-- A load is the load effect. -/
theorem Effect.load {s : State} {i : Instr} (off n : Nat) (hi : isLoad i = true) : Effect s i (s.load off n) := by
  rcases State.load_eq s off n with ⟨_, he⟩ | ⟨b, _, he⟩ <;> rw [he]
  · exact .loaded i _ s.draws hi
  · exact .loaded i _ _ hi

/-- Everything a step can do. -/
theorem exec_effect {i : Instr} {s t : State} (h : exec i s = .next t) : s.fatal = none ∧ Effect s i t := by
  cases i with
  | start =>
    obtain ⟨hf, rfl⟩ := State.act_eq_next.1 h
    refine ⟨hf, ?_⟩
    split
    · unfold State.startCommand
      split
      · exact .same _
      · rename_i hs
        split
        · exact .started (by simpa using hs) ‹_›
        · rename_i hw
          split
          · exact .startFatal _ (by simpa using hs) (by simpa using hw) ‹_›
          · exact .created (by simpa using hs) (by simpa using hw) ‹_›
    · exact .same _
  | play =>
    obtain ⟨hf, rfl⟩ := State.act_eq_next.1 h
    refine ⟨hf, ?_⟩
    split
    · rename_i hc
      simp only [Bool.and_eq_true, Bool.not_eq_true'] at hc
      exact .play hc.1.2 hc.2
    · exact .same _
  | pause =>
    obtain ⟨hf, rfl⟩ := State.act_eq_next.1 h
    refine ⟨hf, ?_⟩
    split
    · rename_i hc
      simp only [Bool.and_eq_true] at hc
      exact .pause hc.2
    · exact .same _
  | stop =>
    obtain ⟨hf, rfl⟩ := State.act_eq_next.1 h
    refine ⟨hf, ?_⟩
    split
    · exact .stop
    · exact .same _
  | reset =>
    obtain ⟨hf, rfl⟩ := State.act_eq_next.1 h
    refine ⟨hf, ?_⟩
    split
    · exact .reset
    · exact .same _
  | swTimecmpLo w =>
    obtain ⟨hf, rfl⟩ := State.act_eq_next.1 h
    refine ⟨hf, ?_⟩
    rw [State.storeCompare_lo]
    cases hw : s.watcherOn with
    | true => exact .watchedLo _ w rfl rfl hw
    | false => exact .stored _ offCmpLo wordBytes w rfl (by decide) rfl (.inr (by decide)) (.inr hw)
  | swTimecmpHi w =>
    obtain ⟨hf, rfl⟩ := State.act_eq_next.1 h
    refine ⟨hf, ?_⟩
    rw [State.storeCompare_hi]
    cases hw : s.watcherOn with
    | true => exact .watchedHi _ w rfl rfl hw
    | false => exact .stored _ offCmpHi wordBytes w rfl (by decide) rfl (.inr (by decide)) (.inr hw)
  | swTimeLo w =>
    obtain ⟨hf, rfl⟩ := State.act_eq_next.1 h
    exact ⟨hf, .store rfl (by decide) (.inr (by decide)) (by simp [isCompareStore])⟩
  | swTimeHi w =>
    obtain ⟨hf, rfl⟩ := State.act_eq_next.1 h
    exact ⟨hf, .store rfl (by decide) (.inr (by decide)) (by simp [isCompareStore])⟩
  | sb off v =>
    obtain ⟨hf, rfl⟩ := State.act_eq_next.1 h
    exact ⟨hf, .store rfl (by decide) (.inl rfl) (by simp [isCompareStore])⟩
  | sh off v =>
    obtain ⟨hf, rfl⟩ := State.act_eq_next.1 h
    exact ⟨hf, .store rfl (by decide) (.inl rfl) (by simp [isCompareStore])⟩
  | sw off v =>
    obtain ⟨hf, rfl⟩ := State.act_eq_next.1 h
    refine ⟨hf, .store rfl (by decide) (.inl rfl) ?_⟩
    simp only [isCompareStore, Bool.or_eq_true, beq_iff_eq, true_and, ← BitVec.toNat_inj]
    rfl
  | lwTimeLo =>
    obtain ⟨hf, rfl⟩ := State.act_eq_next.1 h
    exact ⟨hf, .load _ _ rfl⟩
  | lwTimeHi =>
    obtain ⟨hf, rfl⟩ := State.act_eq_next.1 h
    exact ⟨hf, .load _ _ rfl⟩
  | lwTimecmpLo =>
    obtain ⟨hf, rfl⟩ := State.act_eq_next.1 h
    exact ⟨hf, .load _ _ rfl⟩
  | lwTimecmpHi =>
    obtain ⟨hf, rfl⟩ := State.act_eq_next.1 h
    exact ⟨hf, .load _ _ rfl⟩
  | lb off =>
    obtain ⟨hf, rfl⟩ := State.act_eq_next.1 h
    exact ⟨hf, .load _ _ rfl⟩
  | lh off =>
    obtain ⟨hf, rfl⟩ := State.act_eq_next.1 h
    exact ⟨hf, .load _ _ rfl⟩
  | lw off =>
    obtain ⟨hf, rfl⟩ := State.act_eq_next.1 h
    exact ⟨hf, .load _ _ rfl⟩
  | tick =>
    obtain ⟨hf, rfl⟩ := State.act_eq_next.1 h
    refine ⟨hf, ?_⟩
    split
    · rename_i hb
      simp only [State.mayBeginTick, Bool.and_eq_true, decide_eq_true_eq] at hb
      split
      · exact .sampled hb.1 hb.2 ‹_›
      · rw [← hb.2]; exact .same _
    · exact .same _
  | clkSet c =>
    obtain ⟨hf, rfl⟩ := State.act_eq_next.1 h
    refine ⟨hf, ?_⟩
    split
    · rename_i hc
      exact .clkSet c (by simpa [State.mayRaiseClock] using hc)
    · exact .same _
  | csrSet a b =>
    obtain ⟨hf, rfl⟩ := State.act_eq_next.1 h
    exact ⟨hf, .csrSet a b⟩
  | tWlo =>
    obtain ⟨hf, rfl⟩ := State.act_eq_next.1 h
    refine ⟨hf, ?_⟩
    split
    · rename_i t ht
      rcases State.writeWord_cases s (s.cfg.addr offTimeLo) (lowHalf t) (fun r => { r with tick := .wHi t }) with
        ⟨b, hv, he⟩ | ⟨hv, he⟩ <;> rw [he]
      · exact .tickFatal _ b offTimeLo (.inl ⟨rfl, rfl⟩) hv
      · exact .wroteLo t ht hv
    all_goals exact .same _
  | tWhi =>
    obtain ⟨hf, rfl⟩ := State.act_eq_next.1 h
    refine ⟨hf, ?_⟩
    split
    · rename_i t ht
      rcases State.writeWord_cases s (s.cfg.addr offTimeHi) (highHalf t) (fun r => { r with tick := .eval t }) with
        ⟨b, hv, he⟩ | ⟨hv, he⟩ <;> rw [he]
      · exact .tickFatal _ b offTimeHi (.inr ⟨rfl, rfl⟩) hv
      · exact .wroteHi t ht hv
    all_goals exact .same _
  | tEval =>
    obtain ⟨hf, rfl⟩ := State.act_eq_next.1 h
    refine ⟨hf, ?_⟩
    split
    · rename_i t ht
      unfold State.evaluateTick
      split
      · exact .fired t ht ‹_›
      · rename_i he
        exact .notFired t ht (by simpa using he)
    all_goals exact .same _
  | hZlo =>
    obtain ⟨hf, rfl⟩ := State.act_eq_next.1 h
    refine ⟨hf, ?_⟩
    split
    · rename_i hh
      rcases State.writeWord_cases s (s.cfg.addr offTimeLo) 0#32 (fun t => { t with host := .zeroHi }) with
        ⟨b, hv, he⟩ | ⟨hv, he⟩ <;> rw [he]
      · exact .zeroFatal _ b offTimeLo (.inl ⟨rfl, rfl⟩) hv
      · exact .zeroLo hv hh
    · exact .same _
  | hZhi =>
    obtain ⟨hf, rfl⟩ := State.act_eq_next.1 h
    refine ⟨hf, ?_⟩
    split
    · rename_i hh
      rcases State.writeWord_cases s (s.cfg.addr offTimeHi) 0#32 (fun t => { t with host := .ready }) with
        ⟨b, hv, he⟩ | ⟨hv, he⟩ <;> rw [he]
      · exact .zeroFatal _ b offTimeHi (.inr ⟨rfl, rfl⟩) hv
      · exact .zeroHi hv hh
    · exact .same _

/-- SW_TIMECMP_LO once the Watcher exists. -/
theorem exec_swTimecmpLo_watched {s : State} (w : Word) (hf : s.fatal = none) (hw : s.watcherOn = true) :
    exec (.swTimecmpLo w) s = .next
      { s.memStore (s.cfg.addr offCmpLo) wordBytes w with cmpValue := setLowHalf s.cmpValue w, armed := true } := by
  simp only [exec, execSwTimecmpLo]
  rw [State.act_of_fatal_none hf, State.storeCompare_lo, hw]
  rfl

/-- SW_TIMECMP_HI once the Watcher exists. -/
theorem exec_swTimecmpHi_watched {s : State} (w : Word) (hf : s.fatal = none) (hw : s.watcherOn = true) :
    exec (.swTimecmpHi w) s = .next
      { s.memStore (s.cfg.addr offCmpHi) wordBytes w with cmpValue := setHighHalf s.cmpValue w, armed := true } := by
  simp only [exec, execSwTimecmpHi]
  rw [State.act_of_fatal_none hf, State.storeCompare_hi, hw]
  rfl

/-- A step of a state without a fatal error answers a next state, whatever the operation. -/
theorem exec_completes (i : Instr) {s : State} (hf : s.fatal = none) : ∃ t, exec i s = .next t := by
  cases i <;> exact ⟨_, State.act_of_fatal_none hf _⟩

/-- After a fatal error no operation has a step (R114). -/
theorem exec_fatal (i : Instr) {s : State} {a : Nat} (hf : s.fatal = some a) :
    exec i s = .fault (.fatalConfiguration a) := by
  cases i <;>
    simp [exec, execStart, execPlay, execPause, execStop, execReset, execHZlo, execHZhi, execSwTimecmpLo, execSwTimecmpHi,
      execSwTimeLo, execSwTimeHi, execSb, execSh, execSw, execLwTimeLo, execLwTimeHi, execLwTimecmpLo, execLwTimecmpHi,
      execLb, execLh, execLw, execTick, execTWlo, execTWhi, execTEval, execClkSet, execCsrSet, State.act, hf]

/-- Everything a step of the machine can do: hold, refuse a reserved word, or run one operation of the trace. -/
theorem step_cases {s t : State} (h : step s = .next t) :
    s.cfg.ok = true ∧ s.fatal = none ∧
      (t = s ∨ (∃ r, t = { s with refused := true, trace := r }) ∨ ∃ i r, exec i { s with trace := r } = .next t) := by
  unfold step at h
  split at h
  · rename_i hok
    refine ⟨hok, ?_⟩
    split at h
    · cases h
    · rename_i hf
      refine ⟨hf, ?_⟩
      split at h
      · cases h; exact .inl rfl
      · rename_i op u hu
        unfold State.fetch at hu
        split at hu
        · cases hu
        · cases hu
          unfold State.run at h
          split at h
          · exact .inr (.inr ⟨_, _, h⟩)
          · obtain ⟨_, rfl⟩ := State.act_eq_next.1 h
            exact .inr (.inl ⟨_, rfl⟩)
  · cases h

/-- A run's first operation, then the rest. -/
theorem runOps_cons {i : Instr} {is : List Instr} {s t : State} :
    runOps (i :: is) s = .next t ↔ ∃ u, exec i s = .next u ∧ runOps is u = .next t := by
  simp only [runOps]
  split <;> simp_all

/-- A run of two lists one after the other. -/
theorem runOps_append {is js : List Instr} {s t : State} :
    runOps (is ++ js) s = .next t ↔ ∃ u, runOps is s = .next u ∧ runOps js u = .next t := by
  induction is generalizing s with
  | nil => simp [runOps]
  | cons i is ih =>
    rw [List.cons_append, runOps_cons]
    constructor
    · rintro ⟨u, hu, h⟩
      obtain ⟨v, hv, h⟩ := ih.1 h
      exact ⟨v, runOps_cons.2 ⟨u, hu, hv⟩, h⟩
    · rintro ⟨v, hv, h⟩
      obtain ⟨u, hu, hv⟩ := runOps_cons.1 hv
      exact ⟨u, hu, ih.2 ⟨v, hv, h⟩⟩

end Sys2Proof.Machine
end

