-- ==== Sys2Proof/Laws/PerInstr.lean ====
section
/-! SUPPORT. The encoder writes exactly the operand bytes that the operation word announces (R68), per instruction. -/

namespace Sys2Proof.Laws.EncodeLength

/-- The operand of an instruction is as long as its operation word says. -/
def Statement (i : Instr) : Prop := (operandOf i).length = operandBytes (opWord i)

/-- A store word announces four operand bytes. -/
theorem operandBytes_store (classSize : OpWord) (off : BitVec 8) (h : classSize.extractLsb' 13 3 = 0b001#3) :
    operandBytes (busOp classSize off) = 4 := by
  simp [operandBytes, busOp_extract_high, h]

/-- A load word announces none. -/
theorem operandBytes_load (classSize : OpWord) (off : BitVec 8) (h : classSize.extractLsb' 13 3 = 0b010#3) :
    operandBytes (busOp classSize off) = 0 := by
  simp [operandBytes, busOp_extract_high, h]

theorem start : Statement .start := rfl
theorem play : Statement .play := rfl
theorem pause : Statement .pause := rfl
theorem stop : Statement .stop := rfl
theorem reset : Statement .reset := rfl
theorem swTimecmpLo (w : Word) : Statement (.swTimecmpLo w) :=
  (leBytes_length 4 w).trans (by decide : 4 = operandBytes 0x3020#16)
theorem swTimecmpHi (w : Word) : Statement (.swTimecmpHi w) :=
  (leBytes_length 4 w).trans (by decide : 4 = operandBytes 0x3024#16)
theorem swTimeLo (w : Word) : Statement (.swTimeLo w) :=
  (leBytes_length 4 w).trans (by decide : 4 = operandBytes 0x3018#16)
theorem swTimeHi (w : Word) : Statement (.swTimeHi w) :=
  (leBytes_length 4 w).trans (by decide : 4 = operandBytes 0x301C#16)
theorem sb (off v : BitVec 8) : Statement (.sb off v) := by
  simp only [Statement, operandOf, leBytes_length]
  exact (operandBytes_store 0x2000#16 off (by decide)).symm
theorem sh (off : BitVec 8) (v : BitVec 16) : Statement (.sh off v) := by
  simp only [Statement, operandOf, leBytes_length]
  exact (operandBytes_store 0x2800#16 off (by decide)).symm
theorem sw (off : BitVec 8) (v : Word) : Statement (.sw off v) := by
  simp only [Statement, operandOf, leBytes_length]
  exact (operandBytes_store 0x3000#16 off (by decide)).symm
theorem lwTimeLo : Statement .lwTimeLo := rfl
theorem lwTimeHi : Statement .lwTimeHi := rfl
theorem lwTimecmpLo : Statement .lwTimecmpLo := rfl
theorem lwTimecmpHi : Statement .lwTimecmpHi := rfl
theorem lb (off : BitVec 8) : Statement (.lb off) := (operandBytes_load 0x4000#16 off (by decide)).symm
theorem lh (off : BitVec 8) : Statement (.lh off) := (operandBytes_load 0x4800#16 off (by decide)).symm
theorem lw (off : BitVec 8) : Statement (.lw off) := (operandBytes_load 0x5000#16 off (by decide)).symm
theorem tick : Statement .tick := rfl
theorem clkSet (t : Time) : Statement (.clkSet t) :=
  (leBytes_length 8 t).trans (by decide : 8 = operandBytes 0x6001#16)
theorem csrSet (tie gie : Bool) : Statement (.csrSet tie gie) := by
  cases tie <;> cases gie <;> rfl
theorem tWlo : Statement .tWlo := rfl
theorem tWhi : Statement .tWhi := rfl
theorem tEval : Statement .tEval := rfl
theorem hZlo : Statement .hZlo := rfl
theorem hZhi : Statement .hZhi := rfl

end Sys2Proof.Laws.EncodeLength
end

