-- ==== Sys2Proof/Tests/Slice0.lean ====
section
/-! SUPPORT. The model's own tests: the smoke test of WellFormed, words written out from the tables of R69 to R71, vectors
of spec/95_test_vectors.md, and one witness for each statement that has hypotheses. -/

namespace Sys2Proof.Tests

open Sys2Proof.Machine

/-! ### Small states -/

/-- The state a step answers, if it answers one. -/
def nextOf : Host.Outcome State Fault Refusal → Option State
  | .next s => some s
  | .fault _ => none
  | .refused _ => none

/-- The fault a step answers, if it answers one. -/
def faultOf : Host.Outcome State Fault Refusal → Option Fault
  | .fault r => some r
  | .next _ => none
  | .refused _ => none

/-- The refusal a step answers, if it answers one. -/
def refusalOf : Host.Outcome State Fault Refusal → Option Refusal
  | .refused r => some r
  | .next _ => none
  | .fault _ => none

/-- After block reset, with a clock value and both enables on. -/
def fresh (clk : Time) : State := State.resetWith Config.presumed clk true true

/-- `Running·Paused` with the Watcher. -/
def paused (clk elapsed : Time) : State := { fresh clk with started := true, watcherOn := true, elapsed := elapsed }

/-- `Running·Playing` since a sync point. -/
def playing (clk elapsed sync : Time) : State := { paused clk elapsed with playing := true, sync := some sync }

/-- A tick about to evaluate a time against a compare value. -/
def atEval (t c : Time) (armed tie gie : Bool) : State :=
  { paused t 0#64 with tick := .eval t, cmpValue := c, armed := armed, tie := tie, gie := gie }

/-- A state whose memory region has one byte missing, at an offset from BASE. -/
def holed (off : Nat) (s : State) : State :=
  let a := s.cfg.addr off
  { s with cfg := { s.cfg with valid := [⟨0, a⟩, ⟨a + 1, addrSpace - (a + 1)⟩] } }

/-! ### WellFormed -/

theorem test_named_store_offsets_ill_formed :
    (Instr.sw 0x18#8 1#32).wellFormed = false ∧ (Instr.sw 0x1C#8 1#32).wellFormed = false ∧
    (Instr.sw 0x20#8 1#32).wellFormed = false ∧ (Instr.sw 0x24#8 1#32).wellFormed = false ∧
    (Instr.sw 0x21#8 1#32).wellFormed = true := by decide

theorem test_named_load_offsets_ill_formed :
    (Instr.lw 0x18#8).wellFormed = false ∧ (Instr.lw 0x1C#8).wellFormed = false ∧
    (Instr.lw 0x20#8).wellFormed = false ∧ (Instr.lw 0x24#8).wellFormed = false ∧
    (Instr.lw 0x19#8).wellFormed = true := by decide

/-! ### Decoding: words written out from R69, R70 and R71 -/

theorem test_decode_commands :
    decode [0x00#8, 0x00#8] = .ok (.start, []) ∧ decode [0x01#8, 0x00#8] = .ok (.play, []) ∧
    decode [0x02#8, 0x00#8] = .ok (.pause, []) ∧ decode [0x03#8, 0x00#8] = .ok (.stop, []) ∧
    decode [0x04#8, 0x00#8] = .ok (.reset, []) := ⟨rfl, rfl, rfl, rfl, rfl⟩

/-- Words 0x3020, 0x3024, 0x3018, 0x301C; 0x2020 with data 0x12345605; 0x2824; 0x3022; the data low byte first. -/
theorem test_decode_stores :
    decode [0x20#8, 0x30#8, 0x99#8, 0x00#8, 0x00#8, 0x80#8] = .ok (.swTimecmpLo 0x80000099#32, []) ∧
    decode [0x24#8, 0x30#8, 0x01#8, 0x00#8, 0x00#8, 0x00#8] = .ok (.swTimecmpHi 1#32, []) ∧
    decode [0x18#8, 0x30#8, 0x07#8, 0x00#8, 0x00#8, 0x00#8] = .ok (.swTimeLo 7#32, []) ∧
    decode [0x1C#8, 0x30#8, 0x07#8, 0x00#8, 0x00#8, 0x00#8] = .ok (.swTimeHi 7#32, []) ∧
    decode [0x20#8, 0x20#8, 0x05#8, 0x56#8, 0x34#8, 0x12#8] = .ok (.sb 0x20#8 0x05#8, []) ∧
    decode [0x24#8, 0x28#8, 0x05#8, 0x56#8, 0x34#8, 0x12#8] = .ok (.sh 0x24#8 0x5605#16, []) ∧
    decode [0x22#8, 0x30#8, 0x05#8, 0x56#8, 0x34#8, 0x12#8] = .ok (.sw 0x22#8 0x12345605#32, []) :=
  ⟨rfl, rfl, rfl, rfl, rfl, rfl, rfl⟩

theorem test_decode_loads :
    decode [0x18#8, 0x50#8] = .ok (.lwTimeLo, []) ∧ decode [0x1C#8, 0x50#8] = .ok (.lwTimeHi, []) ∧
    decode [0x20#8, 0x50#8] = .ok (.lwTimecmpLo, []) ∧ decode [0x24#8, 0x50#8] = .ok (.lwTimecmpHi, []) ∧
    decode [0x19#8, 0x40#8] = .ok (.lb 0x19#8, []) ∧ decode [0x1A#8, 0x48#8] = .ok (.lh 0x1A#8, []) ∧
    decode [0xFF#8, 0x50#8] = .ok (.lw 0xFF#8, []) := ⟨rfl, rfl, rfl, rfl, rfl, rfl, rfl⟩

/-- The enables of CSR_SET as section 2.7 lists them; CLK_SET with the operand of program P1. -/
theorem test_decode_steps :
    decode [0x00#8, 0x60#8] = .ok (.tick, []) ∧
    decode [0x01#8, 0x60#8, 0xEB#8, 0x03#8, 0#8, 0#8, 0#8, 0#8, 0#8, 0x80#8, 0xAA#8] =
      .ok (.clkSet 0x80000000000003EB#64, [0xAA#8]) ∧
    decode [0x03#8, 0x60#8] = .ok (.tWlo, []) ∧ decode [0x04#8, 0x60#8] = .ok (.tWhi, []) ∧
    decode [0x05#8, 0x60#8] = .ok (.tEval, []) ∧ decode [0x06#8, 0x60#8] = .ok (.hZlo, []) ∧
    decode [0x07#8, 0x60#8] = .ok (.hZhi, []) := ⟨rfl, rfl, rfl, rfl, rfl, rfl, rfl⟩

theorem test_decode_csr_set :
    decode [0x1A#8, 0x60#8] = .ok (.csrSet true true, []) ∧ decode [0x0A#8, 0x60#8] = .ok (.csrSet false true, []) ∧
    decode [0x12#8, 0x60#8] = .ok (.csrSet true false, []) ∧ decode [0x02#8, 0x60#8] = .ok (.csrSet false false, []) :=
  ⟨rfl, rfl, rfl, rfl⟩

/-- The reserved words of section 2.7: 0x0005, 0x0007, 0x0008, 0x3820, 0x3120, 0x6008, 0x8000, 0xE000. -/
theorem test_decode_reserved :
    decode [0x05#8, 0x00#8] = .error .reservedCommand ∧ decode [0x07#8, 0x00#8] = .error .reservedCommand ∧
    decode [0x08#8, 0x00#8] = .error .commandBitsNotZero ∧
    decode [0x20#8, 0x38#8, 0#8, 0#8, 0#8, 0#8] = .error .reservedSize ∧
    decode [0x20#8, 0x31#8, 0#8, 0#8, 0#8, 0#8] = .error .busBitsNotZero ∧
    decode [0x08#8, 0x60#8] = .error .stepBitsNotZero ∧ decode [0x00#8, 0x80#8] = .error .reservedClass ∧
    decode [0x00#8, 0xE0#8] = .error .reservedClass := ⟨rfl, rfl, rfl, rfl, rfl, rfl, rfl, rfl⟩

/-- A reserved BUSW word without its operand is no whole operation either (log 1). -/
theorem test_decode_incomplete :
    decode [] = .error .incomplete ∧ decode [0x20#8] = .error .incomplete ∧
    decode [0x20#8, 0x30#8, 0#8, 0#8, 0#8] = .error .incomplete ∧ decode [0x20#8, 0x38#8] = .error .incomplete :=
  ⟨rfl, rfl, rfl, rfl⟩

/-- R68: the length is known from the format and the code: 80 bits for the reserved words 0x6009 and 0x6021 as for 0x6001,
48 for the reserved 0x3820, 16 for the reserved 0x6008 and 0xE001. -/
theorem test_operand_lengths :
    [0x6001#16, 0x6009#16, 0x6021#16, 0x3820#16, 0x6008#16, 0xE001#16, 0x5018#16].map operandBytes =
      [8, 8, 8, 4, 0, 0, 0] := by decide

/-- The patterns of spec/opcode_table.json's named word forms, as it writes them. -/
theorem test_named_word_patterns :
    (opcodeTable.filter (fun r => r.mnemonic ∈ ["SW_TIMECMP_LO", "SW_TIMECMP_HI", "SW_TIME_LO", "SW_TIME_HI", "LW_TIME_LO",
      "LW_TIME_HI", "LW_TIMECMP_LO", "LW_TIMECMP_HI"])).map OpRow.pattern =
      [0x3020#16, 0x3024#16, 0x3018#16, 0x301C#16, 0x5018#16, 0x501C#16, 0x5020#16, 0x5024#16] := by decide

/-- A table row's word in the host's numbering: the operand counts on above the word. -/
theorem test_decode_table_word :
    decodeTableWord 16 0x0003 = some .stop ∧ decodeTableWord 48 0x000000993020 = some (.swTimecmpLo 0x99#32) ∧
    decodeTableWord 16 0x6001 = some (.clkSet 0#64) ∧ decodeTableWord 16 0x8000 = none := ⟨rfl, rfl, rfl, rfl⟩

/-! ### One step: the trace -/

/-- A word placed by the host is the operation the next step runs, and leaves the trace. -/
theorem test_step_runs_placed_word :
    (nextOf (step (State.reset.withFetchWord 16 0x0000))).map (fun s => (s.started, s.watcherOn, s.playing, s.trace)) =
      some (true, true, false, []) := by decide

/-- LC13: a command waits while `host` is not Ready; the zero write behind it in the trace is taken. -/
theorem test_step_waiting_command :
    (nextOf (step { fresh 1#64 with host := .zeroLo, trace := [0x01#8, 0x00#8, 0x06#8, 0x60#8] })).map
      (fun s => (s.host, s.trace)) = some (.zeroHi, [0x01#8, 0x00#8]) := by decide

/-- Section 2.7: a reserved word is refused. -/
theorem test_step_reserved_word :
    (nextOf (step (State.reset.withFetchWord 16 0x8000))).map (fun s => (s.refused, s.trace)) = some (true, []) := by decide

/-- Bytes that end inside an operation stay pending (log 1). -/
theorem test_step_incomplete_operation :
    nextOf (step { fresh 0#64 with trace := [0x20#8, 0x38#8] }) = some { fresh 0#64 with trace := [0x20#8, 0x38#8] } := by
  decide

theorem test_step_broken_base :
    refusalOf (step { State.reset with cfg := { Config.presumed with base := 2#32 } }) = some .badConfiguration := by decide

/-! ### Lifecycle commands (section 2.1 and 2.2) -/

/-- LC1 and LC12. -/
theorem test_start :
    (nextOf (exec .start (fresh 0#64))).map (fun s => (s.started, s.watcherOn, s.playing)) = some (true, true, false) ∧
    nextOf (exec .start { paused 10#64 0#64 with started := false }) = some (paused 10#64 0#64) := by decide

/-- LC2. -/
theorem test_start_idempotent : nextOf (exec .start (paused 0#64 0#64)) = some (paused 0#64 0#64) := by decide

/-- LC4 and LC3. -/
theorem test_play :
    nextOf (exec .play (paused 600#64 20#64)) = some (playing 600#64 20#64 600#64) ∧
    nextOf (exec .play (fresh 50#64)) = some (fresh 50#64) := by decide

/-- LC5. -/
theorem test_play_does_not_reanchor :
    nextOf (exec .play (playing 610#64 20#64 600#64)) = some (playing 610#64 20#64 600#64) := by decide

/-- LC6 and LC7. -/
theorem test_pause :
    nextOf (exec .pause (playing 520#64 0#64 500#64)) = some { paused 520#64 20#64 with sync := some 500#64 } ∧
    nextOf (exec .pause (paused 530#64 20#64)) = some (paused 530#64 20#64) := by decide

/-- AC4: the fold wraps modulo 2^64. -/
theorem test_pause_wraps :
    (nextOf (exec .pause (playing 2#64 0xFFFFFFFFFFFFFFFF#64 0#64))).map State.elapsed = some 1#64 := by decide

/-- LC9. -/
theorem test_reset_keeps_playing_and_latch :
    nextOf (exec .reset { playing 700#64 37#64 600#64 with armed := true, cmpValue := 40#64 }) =
      some { playing 700#64 0#64 700#64 with armed := true, cmpValue := 40#64, host := .zeroLo } := by decide

/-- LC11. -/
theorem test_stop :
    nextOf (exec .stop { playing 10#64 0#64 0#64 with armed := true }) =
      some { paused 10#64 0#64 with started := false, sync := some 10#64, armed := true, host := .zeroLo } := by decide

/-- LC10: the zero writes leave both words zero. -/
theorem test_zero_writes :
    (nextOf (exec .hZlo { paused 1#64 0#64 with host := .zeroLo, mem := [(0xFFFF0018, 9#8), (0xFFFF001C, 7#8)] })).map
      (fun s => (s.host, s.mem)) = some (.zeroHi, [(0xFFFF001C, 7#8)]) ∧
    (nextOf (exec .hZhi { paused 1#64 0#64 with host := .zeroHi, mem := [(0xFFFF0018, 9#8), (0xFFFF001C, 7#8)] })).map
      (fun s => (s.host, s.mem)) = some (.ready, [(0xFFFF0018, 9#8)]) := by decide

/-- AC1, AC2 and AC5. -/
theorem test_reported_time :
    (playing 1003#64 0#64 1000#64).reportedTime 1003#64 = 3#64 ∧ (paused 5#64 37#64).reportedTime 99#64 = 37#64 ∧
    (playing 0x100000000#64 0#64 0#64).reportedTime 0x100000000#64 = 0x100000000#64 := by decide

/-! ### The compare watcher (section 2.3) -/

/-- W1, W3 and W5. -/
theorem test_store_compare_low :
    (nextOf (exec (.swTimecmpLo 5#32) (paused 0#64 0#64))).map (fun s => (s.cmpValue, s.armed, s.mem)) =
      some (5#64, true, [(0xFFFF0020, 5#8)]) ∧
    (nextOf (exec (.swTimecmpLo 0x99#32) { paused 0#64 0#64 with cmpValue := 0x0000000200000003#64 })).map State.cmpValue =
      some 0x0000000200000099#64 ∧
    (nextOf (exec (.swTimecmpLo 0x80000000#32) { paused 0#64 0#64 with cmpValue := 0x123456789ABCDEF0#64 })).map
      State.cmpValue = some 0x1234567880000000#64 := by decide

/-- W7: before the Watcher exists only the memory changes. -/
theorem test_store_before_watcher :
    nextOf (exec (.swTimecmpLo 5#32) (fresh 0#64)) = some { fresh 0#64 with mem := [(0xFFFF0020, 5#8)] } := by decide

/-- W2 and W4. -/
theorem test_store_compare_high :
    (nextOf (exec (.swTimecmpHi 1#32) { paused 0#64 0#64 with cmpValue := 5#64 })).map (fun s => (s.cmpValue, s.armed)) =
      some (0x0000000100000005#64, true) ∧
    (nextOf (exec (.swTimecmpHi 0xFFFFFFFF#32) { paused 0#64 0#64 with cmpValue := 0x0000000200000003#64 })).map
      State.cmpValue = some 0xFFFFFFFF00000003#64 := by decide

/-- W9, W13 and a byte outside. -/
theorem test_store_byte :
    nextOf (exec (.sb 0x20#8 5#8) (paused 0#64 0#64)) = some { paused 0#64 0#64 with refused := true } ∧
    nextOf (exec (.sb 0x1F#8 7#8) (fresh 0#64)) = some { fresh 0#64 with refused := true } ∧
    nextOf (exec (.sb 0x28#8 7#8) (fresh 0#64)) = some { fresh 0#64 with mem := [(0xFFFF0028, 7#8)] } := by decide

/-- W11, and a halfword below the window, low byte first. -/
theorem test_store_half :
    nextOf (exec (.sh 0x24#8 1#16) (paused 0#64 0#64)) = some { paused 0#64 0#64 with refused := true } ∧
    nextOf (exec (.sh 0x16#8 0x1234#16) (fresh 0#64)) =
      some { fresh 0#64 with mem := [(0xFFFF0016, 0x34#8), (0xFFFF0017, 0x12#8)] } := by decide

/-- W10, W14, W15 and W16. -/
theorem test_store_word :
    nextOf (exec (.sw 0x22#8 1#32) (paused 0#64 0#64)) = some { paused 0#64 0#64 with refused := true } ∧
    nextOf (exec (.sw 0x16#8 7#32) (fresh 0#64)) = some { fresh 0#64 with refused := true } ∧
    nextOf (exec (.sw 0x14#8 7#32) (fresh 0#64)) = some { fresh 0#64 with mem := [(0xFFFF0014, 7#8)] } ∧
    nextOf (exec (.sw 0x28#8 7#32) (fresh 0#64)) = some { fresh 0#64 with mem := [(0xFFFF0028, 7#8)] } := by decide

/-- W12. -/
theorem test_store_time :
    nextOf (exec (.swTimeLo 7#32) (fresh 0#64)) = some { fresh 0#64 with refused := true } ∧
    nextOf (exec (.swTimeHi 7#32) (fresh 0#64)) = some { fresh 0#64 with refused := true } := by decide

/-- W17: TIME_LO holds 0x11223344. -/
def withTime : State :=
  { fresh 0#64 with mem := [(0xFFFF0018, 0x44#8), (0xFFFF0019, 0x33#8), (0xFFFF001A, 0x22#8), (0xFFFF001B, 0x11#8)] }

/-- W17. -/
theorem test_loads :
    (nextOf (exec (.lb 0x19#8) withTime)).map State.loaded = some [0x33#32] ∧
    (nextOf (exec (.lh 0x1A#8) withTime)).map State.loaded = some [0x1122#32] ∧
    (nextOf (exec .lwTimeLo withTime)).map State.loaded = some [0x11223344#32] ∧
    (nextOf (exec (.lw 0x1A#8) withTime)).map State.loaded = some [0x00001122#32] := by decide

/-- W8, and the other named loads. -/
theorem test_load_compare :
    (nextOf (exec .lwTimecmpLo { fresh 0#64 with mem := [(0xFFFF0020, 5#8)] })).map State.loaded = some [5#32] ∧
    (nextOf (exec .lwTimecmpHi { fresh 0#64 with mem := [(0xFFFF0027, 5#8)] })).map State.loaded = some [0x05000000#32] ∧
    (nextOf (exec .lwTimeHi { fresh 0#64 with mem := [(0xFFFF001C, 5#8)] })).map State.loaded = some [5#32] := by decide

/-! ### The tick (section 2.4) -/

/-- TK2's sample and TK1. -/
theorem test_tick_sample :
    (nextOf (exec .tick (playing 1003#64 0#64 1000#64))).map State.tick = some (.wLo 3#64) ∧
    nextOf (exec .tick (paused 1003#64 5#64)) = some (paused 1003#64 5#64) := by decide

/-- TK12 and TK13: T1 is not enabled. -/
theorem test_tick_not_enabled :
    (fresh 1#64).enabled .tick = false ∧ { paused 9#64 0#64 with tick := .wHi 4#64 }.enabled .tick = false := by decide

/-- TK3: t = 0x1_00000000. -/
theorem test_tick_writes :
    (nextOf (exec .tWlo { paused 0#64 0#64 with tick := .wLo 0x100000000#64, mem := [(0xFFFF0018, 0xFF#8)] })).map
      (fun s => (s.mem, s.tick)) = some ([], .wHi 0x100000000#64) ∧
    (nextOf (exec .tWhi { paused 0#64 0#64 with tick := .wHi 0x100000000#64 })).map (fun s => (s.mem, s.tick)) =
      some ([(0xFFFF001C, 1#8)], .eval 0x100000000#64) := by decide

/-- TK4, TK5, TK6, TK7 and TK8. -/
theorem test_tick_eval :
    nextOf (exec .tEval (atEval 8#64 8#64 true true true)) =
      some { atEval 8#64 8#64 false true true with tick := .idle, delivered := [4] } ∧
    nextOf (exec .tEval (atEval 7#64 8#64 true true true)) =
      some { atEval 7#64 8#64 true true true with tick := .idle } ∧
    (nextOf (exec .tEval (atEval 9#64 8#64 false true true))).map State.delivered = some [] ∧
    (nextOf (exec .tEval (atEval 0x8000000000000000#64 1#64 true true true))).map State.delivered = some [4] ∧
    (nextOf (exec .tEval (atEval 10#64 5#64 true false true))).map (fun s => (s.delivered, s.armed)) =
      some ([], true) := by decide

/-- Section 2.5: of the sixteen input classes only the last fires; and the boundary values. -/
theorem test_evaluator_table :
    (∀ armed tie gie : Bool, evaluate 4#64 5#64 armed tie gie = false ∧
      evaluate 5#64 5#64 armed tie gie = (armed && tie && gie)) ∧
    evaluate 0xFFFFFFFFFFFFFFFF#64 0#64 true true true = true ∧ evaluate 0#64 0#64 true true true = true := by decide

/-! ### The environment and the fatal error (section 2.6) -/

theorem test_clk_set :
    (nextOf (exec (.clkSet 520#64) (fresh 500#64))).map State.clk = some 520#64 ∧
    nextOf (exec (.clkSet 499#64) (fresh 500#64)) = some (fresh 500#64) := by decide

theorem test_csr_set :
    (nextOf (exec (.csrSet false true) (fresh 0#64))).map (fun s => (s.tie, s.gie)) = some (false, true) := by decide

/-- FE1. -/
theorem test_start_fatal :
    nextOf (exec .start (holed 0x23 (fresh 0#64))) = some { holed 0x23 (fresh 0#64) with fatal := some 0xFFFF0023 } := by
  decide

/-- FE2 and FE5. -/
theorem test_zero_write_fatal :
    nextOf (exec .hZlo (holed 0x18 { fresh 0#64 with host := .zeroLo })) =
      some { holed 0x18 { fresh 0#64 with host := .zeroLo } with fatal := some 0xFFFF0018 } ∧
    (nextOf (exec .hZhi (holed 0x1C { fresh 0#64 with host := .zeroHi }))).map (fun s => (s.fatal, s.host)) =
      some (some 0xFFFF001C, .zeroHi) := by decide

/-- FE3. -/
theorem test_tick_fatal :
    (nextOf (exec .tWlo { paused 0#64 0#64 with
      cfg := { Config.presumed with valid := [⟨0, 0xFFFF001A⟩, ⟨0xFFFF001C, 0x1000⟩] }, tick := .wLo 3#64 })).map
      (fun s => (s.fatal, s.tick, s.mem)) = some (some 0xFFFF001A, .wLo 3#64, []) := by decide

/-- FE4. -/
theorem test_no_step_after_fatal :
    faultOf (exec (.swTimecmpLo 1#32) { fresh 0#64 with fatal := some 7 }) = some (.fatalConfiguration 7) ∧
    faultOf (step { State.reset.withFetchWord 16 0x0000 with fatal := some 7 }) = some (.fatalConfiguration 7) := by decide

/-- R81: the masked sequence and the whole tick as operations. -/
theorem test_pseudo_steps :
    Line.expand (fresh 0#64) (.setcmpMasked 0x0000000100000032#64) =
      [.csrSet false true, .swTimecmpHi 1#32, .swTimecmpLo 0x32#32, .csrSet true true] ∧
    Line.expand (playing 1#64 0#64 0#64) (.ticks 2) = [.tick, .tWlo, .tWhi, .tEval, .tick, .tWlo, .tWhi, .tEval] ∧
    Line.expand (paused 1#64 0#64) .tick = [.tick] ∧
    Line.expand (fresh 5#64) (.advance 7#64) = [.clkSet 12#64] ∧
    Line.expand (fresh 0#64) .restart = [.stop, .hZlo, .hZhi, .start] := by decide

/-! ### Witnesses: the hypotheses of each statement are met, each clause at a boundary value -/

theorem witness_DecodeEncodeRoundTrip :
    (Instr.sw 0x17#8 1#32).wellFormed = true ∧ (Instr.lw 0x28#8).wellFormed = true ∧
    (Instr.sb 0x20#8 0xFF#8).wellFormed = true := by decide

theorem witness_DecodedInstructionsWellFormed : decode [0x22#8, 0x50#8, 0x01#8] = .ok (.lw 0x22#8, [0x01#8]) := rfl

theorem witness_DecodeAgreesWithOpcodeTable :
    (⟨"CSR_SET", 0x6002#16, 0xFFE7#16⟩ : OpRow) ∈ opcodeTable ∧
    OpRow.matches ⟨"CSR_SET", 0x6002#16, 0xFFE7#16⟩ 0x601A#16 = true := by decide

/-- A reserved word of each group of R75 at the end of its range, before another operation. -/
theorem witness_ReservedWordsRefused :
    (decodeWord 0x8000#16 [] = .error .reservedClass ∧ decodeWord 0x0005#16 [] = .error .reservedCommand ∧
      decodeWord 0x1008#16 [] = .error .commandBitsNotZero ∧ decodeWord 0x5800#16 [] = .error .reservedSize ∧
      decodeWord 0x5118#16 [] = .error .busBitsNotZero ∧ decodeWord 0x601F#16 [] = .error .stepBitsNotZero ∧
      decodeWord 0x6022#16 [] = .error .stepBitsNotZero) ∧
    State.reset.cfg.ok = true ∧ State.reset.fatal = none ∧
    splitOp [0xFF#8, 0xFF#8, 0x00#8, 0x00#8] = some ([0xFF#8, 0xFF#8], [0x00#8, 0x00#8]) ∧
    decodeOp [0xFF#8, 0xFF#8] = .error .reservedClass := ⟨⟨rfl, rfl, rfl, rfl, rfl, rfl, rfl⟩, by decide, rfl, rfl, rfl⟩

/-- A trace of PLAY, then TICK. -/
def playThenTick : List Byte := [0x01#8, 0x00#8, 0x00#8, 0x60#8]

theorem witness_StepRunsDecodedOperation :
    (paused 1#64 0#64).cfg.ok = true ∧ decode playThenTick = .ok (.play, [0x00#8, 0x60#8]) ∧
    { paused 1#64 0#64 with trace := playThenTick }.enabled .play = true := ⟨by decide, rfl, by decide⟩

theorem witness_WaitingOperationStaysPending :
    (paused 1#64 0#64).cfg.ok = true ∧ (paused 1#64 0#64).fatal = none ∧
    decode playThenTick = .ok (.play, [0x00#8, 0x60#8]) ∧ decode [0x00#8, 0x60#8] = .ok (.tick, []) ∧
    { paused 1#64 0#64 with host := .zeroLo, trace := playThenTick }.enabled .play = false ∧
    { paused 1#64 0#64 with host := .zeroLo, trace := playThenTick }.enabled .tick = true :=
  ⟨by decide, rfl, rfl, rfl, by decide, by decide⟩

theorem witness_StepsWaitUnlessEnabled :
    (fresh 1#64).fatal = none ∧ (fresh 1#64).enabled .hZlo = false ∧ (fresh 1#64).enabled (.clkSet 0#64) = false ∧
    (fresh 1#64).enabled (.clkSet 1#64) = true := by decide

theorem witness_FatalErrorEndsTheRun :
    (holed 0x23 (fresh 0#64)).cfg.firstInvalid ((holed 0x23 (fresh 0#64)).cfg.addr 0x20) 4 = some 0xFFFF0023 ∧
    (holed 0x23 (fresh 0#64)).cfg.firstInvalid ((holed 0x23 (fresh 0#64)).cfg.addr 0x20) 8 = some 0xFFFF0023 ∧
    (holed 0x23 (fresh 0#64)).host = .ready ∧ (holed 0x23 (fresh 0#64)).started = false ∧
    (holed 0x23 (fresh 0#64)).watcherOn = false ∧ (holed 0x23 (fresh 0#64)).fatal = none ∧
    (nextOf (exec .start (holed 0x23 (fresh 0#64)))).map State.fatal = some (some 0xFFFF0023) := by decide

theorem witness_FatalErrorSites :
    (nextOf (exec .start (holed 0x27 (fresh 0#64)))).map State.fatal = some (some 0xFFFF0027) ∧
    (nextOf (exec .tWlo (holed 0x18 (atEval 0#64 0#64 false true true)))).map State.fatal = some none ∧
    (nextOf (exec .tWlo { holed 0x1B (fresh 0#64) with tick := .wLo 0#64 })).map State.fatal = some (some 0xFFFF001B) ∧
    (nextOf (exec .tWhi { holed 0x1F (fresh 0#64) with tick := .wHi 0#64 })).map State.fatal = some (some 0xFFFF001F) ∧
    (∀ k ∈ List.range 16, (fresh 0#64).cfg.memValid ((fresh 0#64).cfg.addr (0x18 + k)) = true) := by decide

/-- Each clause of START: running; the Watcher exists; the whole range valid; its first and its last byte invalid. -/
theorem witness_StartCommand :
    (paused 0#64 0#64).started = true ∧ (paused 0#64 0#64).host = .ready ∧
    (∀ k ∈ List.range 8, (fresh 0#64).cfg.memValid ((fresh 0#64).cfg.addr (0x20 + k)) = true) ∧
    (fresh 0#64).started = false ∧ (fresh 0#64).watcherOn = false ∧
    (holed 0x20 (fresh 0#64)).cfg.memValid ((holed 0x20 (fresh 0#64)).cfg.addr 0x20) = false ∧
    (∀ k ∈ List.range 7, (holed 0x27 (fresh 0#64)).cfg.memValid ((holed 0x27 (fresh 0#64)).cfg.addr (0x20 + k)) = true) ∧
    (holed 0x27 (fresh 0#64)).cfg.memValid ((holed 0x27 (fresh 0#64)).cfg.addr 0x27) = false := by decide

theorem witness_PlayCommand :
    (paused 5#64 0#64).fatal = none ∧ (paused 5#64 0#64).host = .ready ∧ (paused 5#64 0#64).started = true ∧
    (paused 5#64 0#64).playing = false ∧ (fresh 5#64).started = false ∧ (playing 5#64 0#64 0#64).playing = true := by decide

theorem witness_PauseCommand :
    (playing 5#64 0#64 0#64).playing = true ∧ (playing 5#64 0#64 0#64).sync = some 0#64 ∧
    (playing 5#64 0#64 0#64).fatal = none ∧ (playing 5#64 0#64 0#64).host = .ready ∧
    { playing 5#64 0#64 0#64 with sync := none }.sync = none ∧ (paused 5#64 0#64).playing = false := by decide

theorem witness_StopCommand_ResetCommand :
    (playing 5#64 0#64 0#64).fatal = none ∧ (playing 5#64 0#64 0#64).host = .ready ∧
    (playing 5#64 0#64 0#64).cfg.firstInvalid ((playing 5#64 0#64 0#64).cfg.addr 0x18) 4 = none ∧
    (playing 5#64 0#64 0#64).cfg.firstInvalid ((playing 5#64 0#64 0#64).cfg.addr 0x1C) 4 = none ∧
    (holed 0x1B (fresh 0#64)).cfg.firstInvalid ((holed 0x1B (fresh 0#64)).cfg.addr 0x18) 4 = some 0xFFFF001B := by decide

theorem witness_ZeroWriteSteps :
    { fresh 0#64 with host := .zeroLo }.fatal = none ∧
    (∀ k ∈ List.range 8, (fresh 0#64).cfg.memValid ((fresh 0#64).cfg.addr (0x18 + k)) = true) ∧
    (holed 0x1B (fresh 0#64)).cfg.firstInvalid ((holed 0x1B (fresh 0#64)).cfg.addr 0x18) 4 = some 0xFFFF001B ∧
    (holed 0x1C (fresh 0#64)).cfg.firstInvalid ((holed 0x1C (fresh 0#64)).cfg.addr 0x1C) 4 = some 0xFFFF001C := by decide

theorem witness_LifecycleTransitionTable :
    (∀ s ∈ [fresh 1#64, paused 1#64 0#64, playing 1#64 0#64 0#64], s.fatal = none ∧ s.host = .ready ∧
      (s.playing = true → s.started = true) ∧ s.cfg.firstInvalid (s.cfg.addr 0x20) 8 = none) ∧
    (fresh 1#64).lifecycle = .stopped ∧ (paused 1#64 0#64).lifecycle = .runningPaused ∧
    (playing 1#64 0#64 0#64).lifecycle = .runningPlaying := by decide

/-- For the three frame statements: steps that do write what they name. -/
theorem witness_WritersOfEachField_FrameOfTheOtherFields_MemoryFrame :
    (nextOf (exec (.swTimecmpHi 1#32) (paused 0#64 0#64))).map (fun s => (s.cmpValue, s.armed, s.mem.read 0xFFFF0024)) =
      some (0x100000000#64, true, 1#8) ∧
    (nextOf (exec (.swTimecmpHi 1#32) (paused 0#64 0#64))).map
      (fun s => (s.mem.read 0xFFFF0023, s.mem.read 0xFFFF0028)) = some (0#8, 0#8) ∧
    (nextOf (exec .hZlo { fresh 0#64 with host := .zeroLo, mem := [(0xFFFF001B, 1#8)] })).map
      (fun s => s.mem.read 0xFFFF001B) = some 0#8 := by decide

theorem witness_TickSamplesTime :
    (playing 9#64 1#64 2#64).fatal = none ∧ (playing 9#64 1#64 2#64).started = true ∧
    (playing 9#64 1#64 2#64).tick = .idle ∧ (playing 9#64 1#64 2#64).playing = true ∧
    (paused 9#64 1#64).playing = false := by decide

theorem witness_TickPublishesHalves :
    { fresh 0#64 with tick := .wLo 3#64 }.tick = .wLo 3#64 ∧
    (fresh 0#64).cfg.firstInvalid ((fresh 0#64).cfg.addr 0x18) 4 = none ∧
    (fresh 0#64).cfg.firstInvalid ((fresh 0#64).cfg.addr 0x1C) 4 = none ∧
    (holed 0x18 (fresh 0#64)).cfg.firstInvalid ((holed 0x18 (fresh 0#64)).cfg.addr 0x18) 4 = some 0xFFFF0018 ∧
    (holed 0x1F (fresh 0#64)).cfg.firstInvalid ((holed 0x1F (fresh 0#64)).cfg.addr 0x1C) 4 = some 0xFFFF001F := by decide

/-- At the boundary: equal times fire, one below does not. -/
theorem witness_TickEvaluates :
    (atEval 8#64 8#64 true true true).fatal = none ∧ (atEval 8#64 8#64 true true true).tick = .eval 8#64 ∧
    (atEval 8#64 8#64 true true true).cmpValue.toNat ≤ (8#64).toNat ∧
    ¬ (atEval 7#64 8#64 true true true).cmpValue.toNat ≤ (7#64).toNat := by decide

theorem witness_PublishedTimeIsReportedTime :
    (playing 9#64 1#64 2#64).fatal = none ∧ (playing 9#64 1#64 2#64).started = true ∧ (playing 9#64 1#64 2#64).playing = true ∧
    (playing 9#64 1#64 2#64).tick = .idle ∧ (playing 9#64 1#64 2#64).mem.wf = true ∧
    (playing 9#64 1#64 2#64).cfg.firstInvalid ((playing 9#64 1#64 2#64).cfg.addr offTimeLo) 16 = none := by decide

theorem witness_InFlightTickNotCancelled :
    (nextOf (exec .stop { playing 9#64 1#64 2#64 with tick := .wHi 8#64 })).map (fun s => (s.fatal, s.tick)) =
      some (none, .wHi 8#64) ∧
    { playing 9#64 1#64 2#64 with tick := .wHi 8#64 }.enabled .tWhi = true := by decide

/-- TK9: the stale publish raises. -/
theorem witness_StalePublishAfterStop :
    (fun s : State => s.fatal = none ∧ s.host = .ready ∧ s.tick = .wLo 50#64 ∧ s.mem.wf = true ∧
      s.cfg.firstInvalid (s.cfg.addr offTimeLo) 16 = none ∧ s.cmpValue.toNat ≤ (50#64).toNat ∧ s.armed = true ∧
      s.tie = true ∧ s.gie = true)
      { playing 50#64 0#64 0#64 with tick := .wLo 50#64, cmpValue := 20#64, armed := true } := by decide

/-- A store that arms and an evaluation that raises: the bound is reached; the Watcher does not see a store before it exists. -/
theorem witness_RaisesBoundedByArmings :
    (nextOf (runOps [.swTimecmpLo 5#32, .tEval] (atEval 10#64 5#64 false true true))).map
      (fun s => (s.delivered, s.armed)) = some ([4], false) ∧
    seenStores [.swTimecmpLo 5#32, .tEval] (atEval 10#64 5#64 false true true) = 1 ∧
    seenStores [.swTimecmpLo 5#32, .start, .swTimecmpHi 0#32] (fresh 0#64) = 1 := by decide

/-- Each enable off at an evaluation whose condition otherwise holds. -/
theorem witness_MaskedTimerNeverRaises :
    (nextOf (runOps [.tEval] (atEval 10#64 5#64 true false true))).isSome ∧
    (atEval 10#64 5#64 true false true).tie = false ∧ (atEval 10#64 5#64 true true false).gie = false ∧
    (atEval 10#64 5#64 true false true).armed = true ∧ (∀ a b, Instr.csrSet a b ∉ [Instr.tEval]) := by decide

theorem witness_NoEvaluationUnlessPlaying :
    (nextOf (runOps [.tick, .swTimecmpLo 0#32, .tick] (paused 1#64 9#64))).isSome ∧ (paused 1#64 9#64).playing = false ∧
    (paused 1#64 9#64).tick = .idle ∧ Instr.play ∉ [Instr.tick, .swTimecmpLo 0#32, .tick] := by decide

/-- From block reset the shortest run that raises. -/
theorem witness_FirstRaiseNeedsBootSequence :
    (nextOf (runOps [.start, .swTimecmpLo 0#32, .play, .tick, .tWlo, .tWhi, .tEval] (fresh 7#64))).map State.delivered =
      some [4] := by decide

theorem witness_StoreCompareLow_StoreCompareHigh :
    (paused 0#64 0#64).fatal = none ∧ (paused 0#64 0#64).watcherOn = true ∧ (fresh 0#64).watcherOn = false ∧
    (fresh 0#64).cfg.firstInvalid ((fresh 0#64).cfg.addr 0x20) 4 = none ∧
    (fresh 0#64).cfg.firstInvalid ((fresh 0#64).cfg.addr 0x24) 4 = none := by decide

theorem witness_HalfStoresIndependent : (paused 0#64 0#64).fatal = none ∧ (paused 0#64 0#64).watcherOn = true := by decide

theorem witness_StoresBeforeStartAreLost :
    (fresh 0#64).fatal = none ∧ (fresh 0#64).started = false ∧ (fresh 0#64).watcherOn = false ∧ (fresh 0#64).host = .ready ∧
    (fresh 0#64).mem.wf = true ∧ (fresh 0#64).cfg.firstInvalid ((fresh 0#64).cfg.addr 0x20) 8 = none := by decide

/-- The last offset below the window and the first above it, for each width. -/
theorem witness_StoresOutsideTheWindow :
    (fresh 0#64).fatal = none ∧
    (0x17#8).toNat + 1 ≤ 0x18 ∧ (0x16#8).toNat + 2 ≤ 0x18 ∧ (0x14#8).toNat + 4 ≤ 0x18 ∧ 0x28 ≤ (0x28#8).toNat ∧
    (fresh 0#64).cfg.firstInvalid ((fresh 0#64).cfg.addr 0x17) 1 = none ∧
    (fresh 0#64).cfg.firstInvalid ((fresh 0#64).cfg.addr 0x16) 2 = none ∧
    (fresh 0#64).cfg.firstInvalid ((fresh 0#64).cfg.addr 0x28) 4 = none := by decide

/-- A compare store, a general store and a refused store with a byte outside the memory region. -/
theorem witness_StoresOutsideTheRegionComplete :
    (holed 0x23 (paused 0#64 0#64)).fatal = none ∧ isStore (.swTimecmpLo 1#32) = true ∧
    isCompareStore (.swTimecmpLo 1#32) = true ∧
    (holed 0x23 (paused 0#64 0#64)).cfg.firstInvalid
      ((holed 0x23 (paused 0#64 0#64)).cfg.addr (accessOf (.swTimecmpLo 1#32)).1) (accessOf (.swTimecmpLo 1#32)).2 =
      some 0xFFFF0023 ∧
    isCompareStore (.sb 0x28#8 1#8) = false ∧
    (holed 0x28 (paused 0#64 0#64)).cfg.firstInvalid
      ((holed 0x28 (paused 0#64 0#64)).cfg.addr (accessOf (.sb 0x28#8 1#8)).1) (accessOf (.sb 0x28#8 1#8)).2 =
      some 0xFFFF0028 ∧
    isRefusedStore (.sb 0x28#8 1#8) = false ∧ isRefusedStore (.sh 0x27#8 1#16) = true ∧
    (holed 0x28 (paused 0#64 0#64)).cfg.firstInvalid
      ((holed 0x28 (paused 0#64 0#64)).cfg.addr (accessOf (.sh 0x27#8 1#16)).1) (accessOf (.sh 0x27#8 1#16)).2 =
      some 0xFFFF0028 := by decide

/-- The first and the last offset that touch TIME, for each width. -/
theorem witness_TimeStoresRefused :
    (∀ off ∈ [0x18#8, 0x1F#8], nextOf (exec (.sb off 1#8) (paused 0#64 0#64)) = some { paused 0#64 0#64 with refused := true }) ∧
    (∀ off ∈ [0x17#8, 0x1F#8], nextOf (exec (.sh off 1#16) (paused 0#64 0#64)) = some { paused 0#64 0#64 with refused := true }) ∧
    (∀ off ∈ [0x15#8, 0x1F#8], nextOf (exec (.sw off 1#32) (paused 0#64 0#64)) = some { paused 0#64 0#64 with refused := true }) := by
  decide

/-- The first and the last offset that touch the compare range, for each width; 0x1F (halfword) is under both R99 and R100,
with one outcome. -/
theorem witness_CompareSubwordStoresRefused :
    (∀ off ∈ [0x20#8, 0x27#8], nextOf (exec (.sb off 1#8) (paused 0#64 0#64)) = some { paused 0#64 0#64 with refused := true }) ∧
    (∀ off ∈ [0x1F#8, 0x27#8], nextOf (exec (.sh off 1#16) (paused 0#64 0#64)) = some { paused 0#64 0#64 with refused := true }) ∧
    (∀ off ∈ [0x1D#8, 0x21#8, 0x25#8, 0x27#8],
      nextOf (exec (.sw off 1#32) (paused 0#64 0#64)) = some { paused 0#64 0#64 with refused := true }) := by decide

theorem witness_LoadsReturnMemory :
    (fresh 0#64).fatal = none ∧ isLoad .lwTimeLo = true ∧ isLoad (.lb 0xFF#8) = true ∧
    (fresh 0#64).cfg.firstInvalid ((fresh 0#64).cfg.addr (accessOf .lwTimeLo).1) (accessOf .lwTimeLo).2 = none ∧
    (holed 0xFF (fresh 0#64)).cfg.firstInvalid
      ((holed 0xFF (fresh 0#64)).cfg.addr (accessOf (.lb 0xFF#8)).1) (accessOf (.lb 0xFF#8)).2 = some 0xFFFF00FF := by decide

theorem witness_SubwordLoadsSeeTheWord :
    (fresh 0#64).fatal = none ∧ (fresh 0#64).cfg.firstInvalid ((fresh 0#64).cfg.addr offTimeLo) 16 = none ∧
    (0x24#8 + BitVec.ofNat 8 3) = 0x27#8 ∧ (0x24#8 + BitVec.ofNat 8 (2 * 1)) = 0x26#8 := by decide

/-- The last word of the address space, in a memory that lists bytes on both sides of the store. -/
theorem witness_ReadReturnsLatestWrite :
    Memory.wf [(0xFFFFFFFB, 1#8), (0xFFFFFFFC, 2#8)] = true ∧ 0xFFFFFFFC + 4 ≤ 2 ^ 32 := by decide

/-- Program P5's masked variant: a whole tick between the two stores, and one that evaluates right after the mask. -/
theorem witness_MaskedSetcmpSetsDeadline :
    (fun s : State => s.fatal = none ∧ s.watcherOn = true ∧
      s.cfg.firstInvalid (s.cfg.addr offTimeLo) windowBytes = none ∧
      (∀ i ∈ [Instr.tEval] ++ [.tick, .tWlo, .tWhi, .tEval] ++ [],
        isCompareStore i = false ∧ ∀ x y, i ≠ .csrSet x y) ∧
      (nextOf (runOps ([.csrSet false s.gie] ++ [.tEval] ++ [.swTimecmpHi 1#32] ++ [.tick, .tWlo, .tWhi, .tEval] ++
        [.swTimecmpLo 0x32#32] ++ [] ++ [.csrSet true s.gie]) s)).map State.delivered = some [])
      { playing 100#64 0#64 0#64 with tick := .eval 100#64, armed := true } := by decide

/-- Program P5: the deadline 0x1_00000032 at time 100. -/
theorem witness_TornCompareValueMayFire :
    (atEval 100#64 0#64 false true true).fatal = none ∧ (atEval 100#64 0#64 false true true).watcherOn = true ∧
    (atEval 100#64 0#64 false true true).tick = .eval 100#64 ∧
    (joinHalves (highHalf (atEval 100#64 0#64 false true true).cmpValue) (lowHalf 0x100000032#64)).toNat ≤ (100#64).toNat := by
  decide

theorem witness_ClockNeverLowered :
    (fresh 5#64).fatal = none ∧ (fresh 5#64).clk.toNat ≤ (5#64).toNat ∧ (4#64).toNat < (fresh 5#64).clk.toNat := by decide

theorem witness_EnablesReadOnlyAtEvaluation :
    (nextOf (exec .tick (playing 9#64 1#64 2#64))).isSome ∧ Instr.tick ≠ .tEval ∧ (∀ x y, Instr.tick ≠ .csrSet x y) := by decide

theorem witness_ReportedTimeFormula :
    (playing 9#64 1#64 2#64).playing = true ∧ (playing 9#64 1#64 2#64).sync = some 2#64 ∧ (paused 9#64 1#64).playing = false := by
  decide

theorem witness_CommandsIdempotent :
    (nextOf (exec .pause (playing 9#64 1#64 2#64))).map State.fatal = some none ∧
    (nextOf (runOps [.stop, .hZlo, .hZhi] (playing 9#64 1#64 2#64))).map State.fatal = some none ∧
    (playing 9#64 1#64 2#64).host = .ready ∧ (playing 9#64 1#64 2#64).mem.wf = true ∧
    (playing 9#64 1#64 2#64).clk.toNat ≤ (9#64).toNat := by decide

/-- AC3, with the clock raised between the redundant PLAYs and PAUSEs, and a load among them: 20 + 15 + 5. -/
theorem witness_AccumulatorSumsPlayedIntervals_run :
    (fun ops : List Instr => Instr.reset ∉ ops ∧ Instr.stop ∉ ops ∧ playedTime 500#64 none ops = 40#64 ∧
      (nextOf (runOps ops (paused 500#64 0#64))).map (fun t => (t.playing, t.elapsed)) = some (false, 40#64))
      [.play, .clkSet 520#64, .pause, .clkSet 600#64, .play, .clkSet 615#64, .play, .lwTimeLo, .clkSet 620#64, .pause,
        .clkSet 630#64, .pause] := by decide

/-- AC3's intervals, the second with a redundant PLAY and a redundant PAUSE. -/
theorem witness_AccumulatorSumsPlayedIntervals :
    (paused 500#64 0#64).fatal = none ∧ (paused 500#64 0#64).host = .ready ∧ (paused 500#64 0#64).started = true ∧
    (paused 500#64 0#64).playing = false ∧ (paused 500#64 0#64).elapsed = 0 ∧
    intervalsRise (paused 500#64 0#64).clk [(500#64, 520#64, 0, 0), (600#64, 615#64, 1, 1)] := by
  refine ⟨by decide, by decide, by decide, by decide, by decide, ?_⟩
  simp only [intervalsRise]
  decide

theorem witness_ResetThenTimeReadsZero :
    (playing 9#64 1#64 2#64).fatal = none ∧ (playing 9#64 1#64 2#64).host = .ready ∧ (playing 9#64 1#64 2#64).mem.wf = true ∧
    (playing 9#64 1#64 2#64).cfg.firstInvalid ((playing 9#64 1#64 2#64).cfg.addr offTimeLo) 16 = none := by decide

/-- A state that meets every invariant, while playing with a tick in flight. -/
def midway : State :=
  { playing 9#64 1#64 2#64 with tick := .wHi 8#64, mem := [(0xFFFF0018, 8#8)], delivered := [4, 4] }

theorem midway_bounded : midway.AccumulatorBounded := by
  refine ⟨fun _ => ⟨2#64, rfl, by decide, by decide⟩, by decide, ?_⟩
  intro t ht
  cases ht
  decide

theorem midway_watcher : midway.WatcherConsistent := ⟨fun h => absurd h (by decide), fun _ => by decide⟩

theorem witness_ReportedTimeNonDecreasing :
    midway.AccumulatorBounded ∧ (nextOf (exec (.clkSet 12#64) midway)).isSome ∧ Instr.clkSet 12#64 ≠ .reset ∧
    Instr.clkSet 12#64 ≠ .stop := ⟨midway_bounded, by decide, by decide, by decide⟩

theorem witness_ResetMeetsTheInvariants : Memory.wf [(0xFFFF0018, 1#8)] = true := by decide

/-- For the kept invariants: a state that meets them all, with a step to take. -/
theorem witness_MemoryCanonicalKept :
    ({ midway with trace := [0x04#8, 0x60#8] } : State).MemoryCanonical ∧
    (nextOf (step { midway with trace := [0x04#8, 0x60#8] })).isSome := by
  unfold State.MemoryCanonical
  decide

theorem witness_LifecycleLegalKept : midway.LifecycleLegal := by
  unfold State.LifecycleLegal
  decide

theorem witness_AccumulatorBoundedKept : midway.AccumulatorBounded ∧ (nextOf (step midway)).isSome :=
  ⟨midway_bounded, by decide⟩

theorem witness_WatcherConsistentKept : midway.LifecycleLegal ∧ midway.WatcherConsistent ∧ (nextOf (step midway)).isSome :=
  ⟨witness_LifecycleLegalKept, midway_watcher, by decide⟩

theorem witness_FatalAddressAndCodesKept : midway.FatalInWindow ∧ midway.DeliveredCodes ∧ (nextOf (step midway)).isSome := by
  refine ⟨fun a h => absurd h (by simp [midway, playing, paused, fresh, State.resetWith]), ?_, by decide⟩
  unfold State.DeliveredCodes
  decide

/-! ### Witnesses with infinite runs -/

/-- Stopped, with the evaluation of a tick still to come, and after it. -/
def lastTick (k : Nat) : State :=
  match k with
  | 0 => { fresh 0#64 with tick := .eval 0#64, tie := false, gie := false }
  | _ + 1 => { fresh 0#64 with tie := false, gie := false }

/-- T4, and then the enables kept off for ever. -/
def lastTickOps (k : Nat) : Instr :=
  match k with
  | 0 => .tEval
  | _ + 1 => .csrSet false false

theorem witness_InFlightTickCompletes :
    Run lastTick lastTickOps ∧ FairRun lastTick lastTickOps ∧ (lastTick 0).tick = .eval 0#64 := by
  refine ⟨⟨?_, ?_⟩, ?_, rfl⟩
  · rintro (_ | k) <;> rfl
  · rintro (_ | k) <;> rfl
  · intro i hi n h
    have h1 := h (n + 1) (by omega)
    have : ∀ i ∈ fairSteps, (lastTick (n + 1)).enabled i = false := by
      show ∀ i ∈ fairSteps, (lastTick 1).enabled i = false
      decide
    rw [this i hi] at h1
    cases h1

/-- Playing at time 0 with the compare value 0, before sub-step `j` of a tick. -/
def atSubStep (armed : Bool) (delivered : List Nat) (j : Nat) : State :=
  { playing 0#64 0#64 0#64 with
    armed := armed, delivered := delivered
    tick := match j with
      | 0 => .idle
      | 1 => .wLo 0#64
      | 2 => .wHi 0#64
      | _ => .eval 0#64 }

/-- Ticks for ever: the first of them raises. -/
def ticking (k : Nat) : State := if k < 4 then atSubStep true [] k else atSubStep false [4] (k % 4)

/-- The sub-steps of the ticks. -/
def tickingOps (k : Nat) : Instr :=
  match k % 4 with
  | 0 => .tick
  | 1 => .tWlo
  | 2 => .tWhi
  | _ => .tEval

theorem ticking_run : Run ticking tickingOps := by
  have split : ∀ k, (k = 0 ∨ k = 1 ∨ k = 2 ∨ k = 3) ∨ (4 ≤ k ∧ (k % 4 = 0 ∨ k % 4 = 1 ∨ k % 4 = 2 ∨ k % 4 = 3)) := by omega
  constructor
  · intro k
    rcases split k with (h | h | h | h) | ⟨hk, h | h | h | h⟩
    · subst h; decide
    · subst h; decide
    · subst h; decide
    · subst h; decide
    all_goals
      simp only [ticking, tickingOps, h, if_neg (by omega : ¬ k < 4)]
      decide
  · intro k
    rcases split k with (h | h | h | h) | ⟨hk, h | h | h | h⟩
    · subst h; rfl
    · subst h; rfl
    · subst h; rfl
    · subst h; rfl
    · have h' : (k + 1) % 4 = 1 := by omega
      simp only [ticking, tickingOps, h, h', if_neg (by omega : ¬ k < 4), if_neg (by omega : ¬ k + 1 < 4)]
      rfl
    · have h' : (k + 1) % 4 = 2 := by omega
      simp only [ticking, tickingOps, h, h', if_neg (by omega : ¬ k < 4), if_neg (by omega : ¬ k + 1 < 4)]
      rfl
    · have h' : (k + 1) % 4 = 3 := by omega
      simp only [ticking, tickingOps, h, h', if_neg (by omega : ¬ k < 4), if_neg (by omega : ¬ k + 1 < 4)]
      rfl
    · have h' : (k + 1) % 4 = 0 := by omega
      simp only [ticking, tickingOps, h, h', if_neg (by omega : ¬ k < 4), if_neg (by omega : ¬ k + 1 < 4)]
      rfl

theorem ticking_fair : FairRun ticking tickingOps := by
  intro i hi n h
  have host : ∀ k, (ticking k).enabled .hZlo = false ∧ (ticking k).enabled .hZhi = false := by
    intro k
    unfold ticking
    split <;> exact ⟨rfl, rfl⟩
  simp only [fairSteps, List.mem_cons, List.not_mem_nil, or_false] at hi
  rcases hi with rfl | rfl | rfl | rfl | rfl | rfl
  · exact ⟨4 * n, by omega, by simp [tickingOps]⟩
  · exact ⟨4 * n + 1, by omega, by simp [tickingOps, (by omega : (4 * n + 1) % 4 = 1)]⟩
  · exact ⟨4 * n + 2, by omega, by simp [tickingOps, (by omega : (4 * n + 2) % 4 = 2)]⟩
  · exact ⟨4 * n + 3, by omega, by simp [tickingOps, (by omega : (4 * n + 3) % 4 = 3)]⟩
  · have := h n (Nat.le_refl n)
    rw [(host n).1] at this
    cases this
  · have := h n (Nat.le_refl n)
    rw [(host n).2] at this
    cases this

theorem witness_ArmedConditionIsEventuallyRaised :
    Run ticking tickingOps ∧ FairRun ticking tickingOps ∧ (ticking 0).armed = true ∧
    ∀ m, 0 ≤ m → (ticking m).started = true ∧ (ticking m).playing = true ∧ (ticking m).tie = true ∧
      (ticking m).gie = true ∧ (ticking m).cmpValue = 0#64 ∧
      (0#64).toNat ≤ ((ticking m).reportedTime (ticking m).clk).toNat := by
  refine ⟨ticking_run, ticking_fair, rfl, ?_⟩
  intro m _
  unfold ticking
  split <;> exact ⟨rfl, rfl, rfl, rfl, rfl, Nat.zero_le _⟩

end Sys2Proof.Tests
end

section
/-! SUPPORT. What each step leaves unchanged, a field at a time: either the field is what it was, or the step is one of
the field's writers. -/

namespace Sys2Proof.Machine

/-- A compare store is a store. -/
theorem isStore_of_isCompareStore {i : Instr} (h : isCompareStore i = true) : isStore i = true := by
  cases i with
  | swTimecmpLo w => rfl
  | swTimecmpHi w => rfl
  | sw off v => rfl
  | _ => cases h

section
variable {s t : State} {i : Instr}

/-- No step writes the parameters (R6). -/
theorem Effect.cfg_eq (he : Effect s i t) : t.cfg = s.cfg := by
  cases he <;> simp

/-- No operation's meaning writes the trace: the machine's `step` takes the operation out of it before the meaning runs. -/
theorem Effect.trace_eq (he : Effect s i t) : t.trace = s.trace := by
  cases he <;> simp

/-- CLK_SET is the clock's one writer, to a value not below it (R14). -/
theorem Effect.clk_eq_or (he : Effect s i t) :
    t.clk = s.clk ∨ ∃ c, i = .clkSet c ∧ t.clk = c ∧ s.clk.toNat ≤ c.toNat := by
  cases he with
  | clkSet c hle => exact .inr ⟨c, rfl, rfl, hle⟩
  | _ => left; simp

/-- CSR_SET is the enables' one writer (R15). -/
theorem Effect.enables_eq_or (he : Effect s i t) : (t.tie = s.tie ∧ t.gie = s.gie) ∨ ∃ a b, i = .csrSet a b := by
  cases he with
  | csrSet a b => exact .inr ⟨a, b, rfl⟩
  | _ => left; simp

/-- RESET and STOP begin the zero writes and the zero writes move on (R22, R87, R88, R90, R91). -/
theorem Effect.host_eq_or (he : Effect s i t) :
    t.host = s.host ∨ i = .reset ∨ i = .stop ∨ i = .hZlo ∨ i = .hZhi := by
  cases he with
  | stop | reset | zeroLo | zeroHi => right; simp
  | _ => left; simp

/-- The tick's phase is moved by its own four sub-steps (R23, R104 to R107). -/
theorem Effect.tick_eq_or (he : Effect s i t) :
    t.tick = s.tick ∨ i = .tick ∨ i = .tWlo ∨ i = .tWhi ∨ i = .tEval := by
  cases he with
  | sampled | wroteLo | wroteHi | fired | notFired => right; simp
  | _ => left; simp

/-- Sub-step T4 alone delivers an event (R107, R111). -/
theorem Effect.delivered_eq_or (he : Effect s i t) : t.delivered = s.delivered ∨ i = .tEval := by
  cases he with
  | fired => exact .inr rfl
  | _ => left; simp

/-- A load alone returns a value (R97). -/
theorem Effect.loaded_eq_or (he : Effect s i t) : t.loaded = s.loaded ∨ isLoad i = true := by
  cases he with
  | loaded _ _ _ hi => exact .inr hi
  | _ => left; simp

/-- A software access alone draws free bytes (log 7). -/
theorem Effect.draws_eq_or (he : Effect s i t) : t.draws = s.draws ∨ isLoad i = true ∨ isStore i = true := by
  cases he with
  | loaded _ _ _ hi => exact .inr (.inl hi)
  | stored _ _ _ _ hi => exact .inr (.inr hi)
  | watchedLo _ _ hi | watchedHi _ _ hi => exact .inr (.inr (isStore_of_isCompareStore hi))
  | _ => left; simp

/-- A store alone sets the mark `refused`, and nothing clears it (R35, R99, R100). -/
theorem Effect.refused_eq_or (he : Effect s i t) :
    t.refused = s.refused ∨ (t.refused = true ∧ isStore i = true) := by
  cases he with
  | refused _ hi => exact .inr ⟨rfl, hi⟩
  | _ => left; simp

end

/-- Settles O20: each clause is that field's lemma over everything a step can do, and a state that has a step has no fatal
error yet. -/
theorem frameOfTheOtherFields : Obligations.FrameOfTheOtherFields := by
  intro s t i h
  obtain ⟨hf, he⟩ := exec_effect h
  refine ⟨he.cfg_eq, he.trace_eq, fun hne => ?_, fun hne => ?_, he.host_eq_or.resolve_left, he.tick_eq_or.resolve_left,
    he.delivered_eq_or.resolve_left, he.loaded_eq_or.resolve_left, he.draws_eq_or.resolve_left,
    he.refused_eq_or.resolve_left, fun _ => hf⟩
  · obtain ⟨c, hi, -, -⟩ := he.clk_eq_or.resolve_left hne
    exact ⟨c, hi⟩
  · exact he.enables_eq_or.resolve_left (not_and_or.2 hne)

end Sys2Proof.Machine
end

section
/-! SUPPORT. The steps of the Env agent: the clock (R14), and the enables, which no step but T4 reads (R15). -/

namespace Sys2Proof.Machine

/-- CLK_SET to a value not below the clock sets it and nothing else (R14). -/
theorem exec_clkSet_of_le {s : State} {c : Time} (hf : s.fatal = none) (h : s.clk.toNat ≤ c.toNat) :
    exec (.clkSet c) s = .next { s with clk := c } := by
  simp [exec, execClkSet, State.act_of_fatal_none hf, State.mayRaiseClock, h]

/-- CLK_SET to a lower value is not enabled and waits (R14, log 1). -/
theorem exec_clkSet_of_lt {s : State} {c : Time} (hf : s.fatal = none) (h : c.toNat < s.clk.toNat) :
    exec (.clkSet c) s = .next s := by
  simp [exec, execClkSet, State.act_of_fatal_none hf, State.mayRaiseClock, Nat.not_le.2 h]

/-- No step lowers the clock (R14). -/
theorem Effect.clk_le {s t : State} {i : Instr} (he : Effect s i t) : s.clk.toNat ≤ t.clk.toNat := by
  rcases he.clk_eq_or with heq | ⟨c, -, rfl, hle⟩
  · rw [heq]
  · exact hle

/-- Settles O45: the two cases of CLK_SET, and the clock's one writer raises it. -/
theorem clockNeverLowered : Obligations.ClockNeverLowered :=
  ⟨fun _ _ hf => ⟨exec_clkSet_of_le hf, exec_clkSet_of_lt hf⟩, fun _ _ _ h => (exec_effect h).2.clk_le⟩

/-- The state with other enable inputs: what CSR_SET makes of it (`exec_csrSet`). -/
def State.withEnables (s : State) (a b : Bool) : State := { s with tie := a, gie := b }

/-- CSR_SET sets the two enables and nothing else (R15). -/
theorem exec_csrSet {s : State} (a b : Bool) (hf : s.fatal = none) :
    exec (.csrSet a b) s = .next (s.withEnables a b) :=
  State.act_of_fatal_none hf _

@[simp] theorem State.withEnables_cfg (s : State) (a b : Bool) : (s.withEnables a b).cfg = s.cfg := rfl
@[simp] theorem State.withEnables_tick (s : State) (a b : Bool) : (s.withEnables a b).tick = s.tick := rfl

section
variable {s t t' u u' : State} {a b : Bool}

/-! Each shared operation commutes with a change of the enables, as it reads neither. -/

/-- A choice commutes where both its branches do. -/
theorem State.withEnables_ite {p : Prop} [Decidable p] (ht : t' = t.withEnables a b) (hu : u' = u.withEnables a b) :
    (if p then t' else u') = (if p then t else u).withEnables a b := by
  subst ht hu
  exact (apply_ite (State.withEnables · a b) p t u).symm

theorem State.startCommand_withEnables : (s.withEnables a b).startCommand = s.startCommand.withEnables a b := by
  refine State.withEnables_ite rfl (State.withEnables_ite rfl ?_)
  rw [State.withEnables_cfg]
  cases s.cfg.firstInvalid (s.cfg.addr offCmpLo) cmpRangeBytes <;> rfl

theorem State.writeWord_withEnables {addr : Nat} {v : Word} {done : State → State}
    (hdone : ∀ r : State, done (r.withEnables a b) = (done r).withEnables a b) :
    (s.withEnables a b).writeWord addr v done = (s.writeWord addr v done).withEnables a b := by
  unfold State.writeWord
  rw [State.withEnables_cfg]
  cases s.cfg.firstInvalid addr wordBytes with
  | some _ => rfl
  | none => exact hdone { s with mem := s.mem.writeBytes addr (leBytes wordBytes v) }

theorem State.notify_withEnables {n : Notification} : (s.withEnables a b).notify n = (s.notify n).withEnables a b :=
  State.withEnables_ite (State.withEnables_ite (State.withEnables_ite rfl (State.withEnables_ite rfl rfl)) rfl) rfl

theorem State.memStore_withEnables {addr n : Nat} {v : Word} :
    (s.withEnables a b).memStore addr n v = (s.memStore addr n v).withEnables a b := by
  unfold State.memStore
  rw [State.withEnables_cfg]
  cases s.cfg.firstInvalid addr n <;> rfl

theorem State.storeCompare_withEnables {off : Nat} {w : Word} :
    (s.withEnables a b).storeCompare off w = (s.storeCompare off w).withEnables a b := by
  unfold State.storeCompare
  rw [State.withEnables_cfg, State.memStore_withEnables, State.notify_withEnables]

theorem State.store_withEnables {off n : Nat} {v : Word} :
    (s.withEnables a b).store off n v = (s.store off n v).withEnables a b :=
  State.withEnables_ite rfl (State.withEnables_ite
    (State.withEnables_ite State.storeCompare_withEnables (State.withEnables_ite State.storeCompare_withEnables rfl))
    State.memStore_withEnables)

theorem State.load_withEnables {off n : Nat} : (s.withEnables a b).load off n = (s.load off n).withEnables a b := by
  unfold State.load
  simp only [State.returnLoad_eq, State.withEnables_cfg]
  cases s.cfg.firstInvalid (s.cfg.addr off) n <;> rfl

/-- A step whose effect commutes with the change of the enables answers the changed next state. -/
theorem State.act_withEnables (h : s.act t = .next u) (ht : t' = t.withEnables a b) :
    (s.withEnables a b).act t' = .next (u.withEnables a b) := by
  obtain ⟨hf, rfl⟩ := State.act_eq_next.1 h
  rw [ht]
  exact State.act_of_fatal_none hf _

end

/-- A step other than T4 and CSR_SET does the same to the rest of the state whatever the enables are, and leaves them
(R15). -/
theorem exec_withEnables {s t : State} {i : Instr} (a b : Bool) (heval : i ≠ .tEval) (hcsr : ∀ x y, i ≠ .csrSet x y)
    (h : exec i s = .next t) : exec i (s.withEnables a b) = .next (t.withEnables a b) := by
  cases i with
  | tEval => exact absurd rfl heval
  | csrSet x y => exact absurd rfl (hcsr x y)
  | start => exact State.act_withEnables h (State.withEnables_ite State.startCommand_withEnables rfl)
  | play | pause | stop | reset | tick | clkSet => exact State.act_withEnables h (State.withEnables_ite rfl rfl)
  | swTimecmpLo | swTimecmpHi => exact State.act_withEnables h State.storeCompare_withEnables
  | swTimeLo | swTimeHi | sb | sh | sw => exact State.act_withEnables h State.store_withEnables
  | lwTimeLo | lwTimeHi | lwTimecmpLo | lwTimecmpHi | lb | lh | lw => exact State.act_withEnables h State.load_withEnables
  | hZlo | hZhi =>
    exact State.act_withEnables h (State.withEnables_ite (State.writeWord_withEnables fun _ => rfl) rfl)
  | tWlo =>
    refine State.act_withEnables h ?_
    rw [State.withEnables_tick]
    cases s.tick with
    | wLo x => exact State.writeWord_withEnables fun _ => rfl
    | idle | wHi | eval => rfl
  | tWhi =>
    refine State.act_withEnables h ?_
    rw [State.withEnables_tick]
    cases s.tick with
    | wHi x => exact State.writeWord_withEnables fun _ => rfl
    | idle | wLo | eval => rfl

/-- Settles O46: CSR_SET sets the enables and nothing else, and every step but it and T4 commutes with that. -/
theorem enablesReadOnlyAtEvaluation : Obligations.EnablesReadOnlyAtEvaluation :=
  ⟨fun _ a b hf => exec_csrSet a b hf, fun _ _ _ a b heval hcsr h => exec_withEnables a b heval hcsr h⟩

end Sys2Proof.Machine
end

section
/-! SUPPORT. How the machine's `step` takes an operation out of the trace: the first one where its step is enabled, else the
one behind it (R13, log 1). -/

namespace Sys2Proof.Machine

/-- A row decodes where its first operation is whole and is no reserved word. -/
theorem decode_eq_ok {bs rest : List Byte} {i : Instr} :
    decode bs = .ok (i, rest) ↔ ∃ op, splitOp bs = some (op, rest) ∧ decodeOp op = .ok i := by
  unfold decode
  cases splitOp bs with
  | none => simp
  | some p =>
    obtain ⟨op, r⟩ := p
    cases hd : decodeOp op with
    | error e => simp [hd]
    | ok j => simp [hd, and_comm]

section
variable {s : State} {i : Instr} {op bs rest : List Byte}

/-- Without a fatal error, an operation that decodes is taken exactly where its step is enabled. -/
theorem State.accepts_eq_enabled (hf : s.fatal = none) (hd : decodeOp op = .ok i) : s.accepts op = s.enabled i := by
  simp [State.accepts, State.enabled, hd, hf]

/-- The first operation is picked where it is taken now. -/
theorem State.pick_accepted {n : Nat} (hs : splitOp bs = some (op, rest)) (ha : s.accepts op = true) :
    s.pick (n + 1) bs = some (op, rest) := by
  simp [State.pick, hs, ha]

/-- An operation that waits stays in front of what is left when one behind it is picked. -/
theorem State.pick_waiting {n : Nat} (hs : splitOp bs = some (op, rest)) (ha : s.accepts op = false) :
    s.pick (n + 1) bs = (s.pick n rest).map (fun p => (p.1, op ++ p.2)) := by
  simp only [State.pick, hs, ha]
  cases s.pick n rest <;> rfl

/-- Nothing is picked from no bytes. -/
theorem State.pick_nil (n : Nat) : s.pick n [] = none := by
  cases n <;> rfl

/-- A step runs the operation that is picked, on the state with it taken out of the trace. -/
theorem step_of_pick (hok : s.cfg.ok = true) (hf : s.fatal = none)
    (hp : s.pick s.trace.length s.trace = some (op, rest)) (hd : decodeOp op = .ok i) :
    step s = exec i { s with trace := rest } := by
  simp [step, hok, hf, State.fetch, hp, State.run, hd]

/-- Where nothing is picked the machine holds (R13). -/
theorem step_of_pick_none (hok : s.cfg.ok = true) (hf : s.fatal = none)
    (hp : s.pick s.trace.length s.trace = none) : step s = .next s := by
  simp [step, hok, hf, State.fetch, hp]

/-- A trace that holds a whole operation gives `pick` fuel for it and for every one behind it. -/
theorem length_of_splitOp (hs : splitOp bs = some (op, rest)) : ∃ n, bs.length = n + 1 ∧ rest.length < n := by
  have hlen := splitOp_length hs
  exact ⟨bs.length - 1, by omega, by omega⟩

end

/-- Settles O6: the operation is the first of the trace and is taken now, so it is the one picked. -/
theorem stepRunsDecodedOperation : Obligations.StepRunsDecodedOperation := by
  intro s i rest hok hdec hen
  have hf : s.fatal = none := by
    simp only [State.enabled, Bool.and_eq_true, Option.isNone_iff_eq_none] at hen
    exact hen.1
  obtain ⟨op, hs, hd⟩ := decode_eq_ok.1 hdec
  obtain ⟨n, hn, -⟩ := length_of_splitOp hs
  have ha : s.accepts op = true := by rw [State.accepts_eq_enabled hf hd, hen]
  exact step_of_pick hok hf (hn ▸ State.pick_accepted hs ha) hd

/-- Settles O7: the first operation waits, so what is picked is what is picked behind it, and the bytes of the waiting
operation stay in front. -/
theorem waitingOperationStaysPending : Obligations.WaitingOperationStaysPending := by
  intro s i rest hok hf hdec hen
  obtain ⟨op, hs, hd⟩ := decode_eq_ok.1 hdec
  obtain ⟨n, hn, hrest⟩ := length_of_splitOp hs
  have hp := State.pick_waiting (n := n) hs ((State.accepts_eq_enabled hf hd).trans hen)
  rw [← hn] at hp
  constructor
  · rintro rfl
    rw [State.pick_nil] at hp
    exact step_of_pick_none hok hf hp
  · intro j rest' hdec' hen'
    obtain ⟨op', hs', hd'⟩ := decode_eq_ok.1 hdec'
    obtain ⟨m, rfl⟩ : ∃ m, n = m + 1 := ⟨n - 1, by omega⟩
    rw [State.pick_accepted hs' ((State.accepts_eq_enabled hf hd').trans hen')] at hp
    exact ⟨op, (splitOp_append hs).symm, step_of_pick hok hf hp hd'⟩

end Sys2Proof.Machine
end

section
/-! SUPPORT. The writers of the block's fields (R45): either a step leaves the field as it was, or it is one of the field's
writers. -/

namespace Sys2Proof.Machine

section
variable {s t : State} {i : Instr}

/-- START and STOP alone write `started` (R24). -/
theorem Effect.started_eq_or (he : Effect s i t) : t.started = s.started ∨ i = .start ∨ i = .stop := by
  cases he with
  | started | created | stop => right; simp
  | _ => left; simp

/-- PLAY, PAUSE and STOP alone write `playing` (R26). -/
theorem Effect.playing_eq_or (he : Effect s i t) : t.playing = s.playing ∨ i = .play ∨ i = .pause ∨ i = .stop := by
  cases he with
  | play | pause | stop => right; simp
  | _ => left; simp

/-- PAUSE, RESET and STOP alone write `elapsed` (R27). -/
theorem Effect.elapsed_eq_or (he : Effect s i t) : t.elapsed = s.elapsed ∨ i = .pause ∨ i = .reset ∨ i = .stop := by
  cases he with
  | pause | stop | reset => right; simp
  | _ => left; simp

/-- PLAY, RESET and STOP alone write the sync point (R28). -/
theorem Effect.sync_eq_or (he : Effect s i t) : t.sync = s.sync ∨ i = .play ∨ i = .reset ∨ i = .stop := by
  cases he with
  | play | stop | reset => right; simp
  | _ => left; simp

/-- A compare store seen by the Watcher alone writes the compare value (R31). -/
theorem Effect.cmpValue_eq_or (he : Effect s i t) :
    t.cmpValue = s.cmpValue ∨ (isCompareStore i = true ∧ s.watcherOn = true) := by
  cases he with
  | watchedLo _ _ hi _ hw | watchedHi _ _ hi _ hw => exact .inr ⟨hi, hw⟩
  | _ => left; simp

/-- A compare store seen by the Watcher sets the latch, sub-step T4 clears it, and nothing else writes it (R32). -/
theorem Effect.armed_eq_or (he : Effect s i t) :
    t.armed = s.armed ∨ (t.armed = true ∧ isCompareStore i = true ∧ s.watcherOn = true) ∨
      (t.armed = false ∧ i = .tEval) := by
  cases he with
  | watchedLo _ _ hi _ hw | watchedHi _ _ hi _ hw => exact .inr (.inl ⟨rfl, hi, hw⟩)
  | fired => exact .inr (.inr ⟨rfl, rfl⟩)
  | _ => left; simp

/-- START alone writes `watcherOn`, which nothing clears (R33). -/
theorem Effect.watcherOn_eq_or (he : Effect s i t) :
    t.watcherOn = s.watcherOn ∨ (t.watcherOn = true ∧ i = .start) := by
  cases he with
  | created => exact .inr ⟨rfl, rfl⟩
  | _ => left; simp

/-- A software store that lies outside TIME_LO and TIME_HI leaves each of their bytes alone. -/
theorem State.memStore_read_time (s : State) {a n k : Nat} (v : Word) (ha : a + n ≤ 0x18 ∨ 0x20 ≤ a) (hlo : 0x18 ≤ k)
    (hhi : k < 0x20) : (s.memStore (s.cfg.addr a) n v).mem.read (s.cfg.addr k) = s.mem.read (s.cfg.addr k) := by
  refine State.memStore_read_outside s _ n v ?_
  simp only [Config.addr]
  omega

/-- Sub-steps T2 and T3 and the zero writes alone write a byte of TIME_LO or TIME_HI: a software store that completes lies
outside the two words (R36, R37, R100). -/
theorem Effect.read_time_eq_or (he : Effect s i t) {k : Nat} (hlo : 0x18 ≤ k) (hhi : k < 0x20) :
    t.mem.read (s.cfg.addr k) = s.mem.read (s.cfg.addr k) ∨ i = .tWlo ∨ i = .tWhi ∨ i = .hZlo ∨ i = .hZhi := by
  cases he with
  | wroteLo | wroteHi | zeroLo | zeroHi => right; simp
  | stored _ a n v _ _ _ ha => exact .inl (s.memStore_read_time v ha hlo hhi)
  | watchedLo _ v => exact .inl (s.memStore_read_time v (.inr (by decide)) hlo hhi)
  | watchedHi _ v => exact .inl (s.memStore_read_time v (.inr (by decide)) hlo hhi)
  | _ => left; rfl

end

/-- Settles O19: each clause is that field's lemma over everything a step can do. -/
theorem writersOfEachField : Obligations.WritersOfEachField := by
  intro s t i h
  obtain ⟨-, he⟩ := exec_effect h
  exact ⟨he.started_eq_or.resolve_left, he.playing_eq_or.resolve_left, he.elapsed_eq_or.resolve_left,
    he.sync_eq_or.resolve_left, he.cmpValue_eq_or.resolve_left, he.armed_eq_or.resolve_left,
    he.watcherOn_eq_or.resolve_left, fun _ hlo hhi => (he.read_time_eq_or hlo hhi).resolve_left⟩

end Sys2Proof.Machine
end

section
/-! SUPPORT. The reported time (R29), in natural numbers where the accumulator's invariant holds (R30). -/

namespace Sys2Proof.Machine

/-- Neither the difference nor the sum of the reported time wraps where the times are in order (R30). -/
theorem toNat_add_sub_of_le {e p c : Time} (hep : e.toNat ≤ p.toNat) (hpc : p.toNat ≤ c.toNat) :
    (e + (c - p)).toNat = e.toNat + (c.toNat - p.toNat) := by
  bv_omega

section
variable {s : State} {c : Time}

/-- The reported time while playing, from a sync point that was set (R29). -/
theorem State.reportedTime_playing {p : Time} (hp : s.playing = true) (hs : s.sync = some p) :
    s.reportedTime c = s.elapsed + (c - p) := by
  simp [State.reportedTime, State.syncPoint, hp, hs]

/-- The reported time is frozen while not playing (R29, R92 item 2). -/
theorem State.reportedTime_paused (hp : s.playing = false) : s.reportedTime c = s.elapsed := by
  simp [State.reportedTime, hp]

/-- The reported time is at most the clock value it is taken at, for any value the clock may yet have (R30). -/
theorem State.AccumulatorBounded.reportedTime_le (h : s.AccumulatorBounded) (hc : s.clk.toNat ≤ c.toNat) :
    (s.reportedTime c).toNat ≤ c.toNat := by
  obtain ⟨hplaying, helapsed, -⟩ := h
  cases hp : s.playing with
  | false =>
    rw [State.reportedTime_paused hp]
    omega
  | true =>
    obtain ⟨p, hs, hpc, hep⟩ := hplaying hp
    rw [State.reportedTime_playing hp hs, toNat_add_sub_of_le hep (hpc.trans hc)]
    omega

/-- The reported time does not fall as the clock rises (R30). -/
theorem State.AccumulatorBounded.reportedTime_mono (h : s.AccumulatorBounded) (hc : s.clk.toNat ≤ c.toNat) :
    (s.reportedTime s.clk).toNat ≤ (s.reportedTime c).toNat := by
  obtain ⟨hplaying, -, -⟩ := h
  cases hp : s.playing with
  | false => simp only [State.reportedTime_paused hp, le_refl]
  | true =>
    obtain ⟨p, hs, hpc, hep⟩ := hplaying hp
    rw [State.reportedTime_playing hp hs, State.reportedTime_playing hp hs, toNat_add_sub_of_le hep hpc,
      toNat_add_sub_of_le hep (hpc.trans hc)]
    omega

/-- The reported time is read from four fields alone (R29). -/
theorem State.reportedTime_congr {t : State} (hp : t.playing = s.playing) (he : t.elapsed = s.elapsed)
    (hs : t.sync = s.sync) (hc : t.clk = s.clk) : t.reportedTime t.clk = s.reportedTime s.clk := by
  simp only [State.reportedTime, State.syncPoint, hp, he, hs, hc]

/-- PAUSE folds in the time reported at the clock (R86). -/
theorem State.elapsed_add_eq_reportedTime (hp : s.playing = true) :
    s.elapsed + (c - s.syncPoint) = s.reportedTime c := by
  simp [State.reportedTime, hp]

end

/-- Settles O47: the two arms of the reported time. -/
theorem reportedTimeFormula : Obligations.ReportedTimeFormula :=
  fun _ => ⟨fun _ _ => State.reportedTime_playing, fun _ => State.reportedTime_paused⟩

/-- A step other than RESET and STOP does not lower the time reported at the clock: PLAY starts from the frozen time, PAUSE
freezes the time reported, CLK_SET raises the clock, and no other step writes what the time is read from (R30, R144). -/
theorem Effect.reportedTime_le {s t : State} {i : Instr} (he : Effect s i t) (h : s.AccumulatorBounded)
    (hreset : i ≠ .reset) (hstop : i ≠ .stop) : (s.reportedTime s.clk).toNat ≤ (t.reportedTime t.clk).toNat := by
  cases he with
  | reset => exact absurd rfl hreset
  | stop => exact absurd rfl hstop
  | play _ hp =>
    rw [State.reportedTime_paused hp, State.reportedTime_playing rfl rfl]
    simp
  | pause hp =>
    rw [State.reportedTime_paused (s := { s with elapsed := _, playing := false }) rfl,
      State.elapsed_add_eq_reportedTime hp]
  | clkSet c hle => exact h.reportedTime_mono hle
  | _ => exact (congrArg BitVec.toNat (State.reportedTime_congr (by simp) (by simp) (by simp) (by simp))).ge

/-- Settles O51, by what each step does to the fields that the time is read from. -/
theorem reportedTimeNonDecreasing : Obligations.ReportedTimeNonDecreasing :=
  fun _ _ _ hb h => (exec_effect h).2.reportedTime_le hb

end Sys2Proof.Machine
end

section
/-! SUPPORT. The invariants that every step of the machine keeps: the lifecycle state (R25, R33) and the accumulator's bounds
(R30). -/

namespace Sys2Proof.Machine

/-- What every operation keeps, every step of the machine keeps, where it reads neither the trace nor the mark `refused`:
a step that runs no operation writes these two alone. -/
theorem step_keeps {P : State → Prop} {s t : State} (hmark : ∀ (s : State) (b : Bool) (r : List Byte),
      P s → P { s with refused := b, trace := r })
    (hexec : ∀ {s t : State} {i : Instr}, Effect s i t → P s → P t) (hs : P s) (h : step s = .next t) : P t := by
  obtain ⟨-, -, hcases⟩ := step_cases h
  rcases hcases with rfl | ⟨r, rfl⟩ | ⟨i, r, hrun⟩
  · exact hs
  · exact hmark s true r hs
  · exact hexec (exec_effect hrun).2 (hmark s s.refused r hs)

/-- START alone sets `started`, and only with a Watcher; PLAY alone sets `playing`, and only while started; STOP clears both
(R25, R84, R85, R88). -/
theorem Effect.lifecycleLegal {s t : State} {i : Instr} (he : Effect s i t) (h : s.LifecycleLegal) :
    t.LifecycleLegal := by
  obtain ⟨hplaying, hstarted⟩ := h
  cases he with
  | started _ hw => exact ⟨fun _ => rfl, fun _ => hw⟩
  | created => exact ⟨fun _ => rfl, fun _ => rfl⟩
  | play hs => exact ⟨fun _ => hs, hstarted⟩
  | pause => exact ⟨nofun, hstarted⟩
  | stop => exact ⟨nofun, nofun⟩
  | _ => simpa [State.LifecycleLegal] using ⟨hplaying, hstarted⟩

/-- Settles O55: every operation keeps the lifecycle state legal. -/
theorem lifecycleLegalKept : Obligations.LifecycleLegalKept :=
  fun _ _ => step_keeps (fun _ _ _ h => h) Effect.lifecycleLegal

/-- PLAY anchors the sync point at the clock, PAUSE folds in a time not above the clock, RESET and STOP zero the time,
CLK_SET raises the clock, and T1 samples a time not above it; the tick's later sub-steps hand the sampled time on (R30). -/
theorem Effect.accumulatorBounded {s t : State} {i : Instr} (he : Effect s i t) (h : s.AccumulatorBounded) :
    t.AccumulatorBounded := by
  have hb := h
  obtain ⟨hplaying, helapsed, htick⟩ := h
  cases he with
  | play => exact ⟨fun _ => ⟨s.clk, rfl, le_refl _, helapsed⟩, helapsed, htick⟩
  | pause hp =>
    refine ⟨nofun, ?_, htick⟩
    rw [State.elapsed_add_eq_reportedTime hp]
    exact hb.reportedTime_le (le_refl _)
  | stop => exact ⟨nofun, Nat.zero_le _, htick⟩
  | reset => exact ⟨fun _ => ⟨s.clk, rfl, le_refl _, Nat.zero_le _⟩, Nat.zero_le _, htick⟩
  | clkSet c hle =>
    refine ⟨fun hp => ?_, helapsed.trans hle, fun t ht => (htick t ht).trans hle⟩
    obtain ⟨p, hs, hpc, hep⟩ := hplaying hp
    exact ⟨p, hs, hpc.trans hle, hep⟩
  | sampled =>
    refine ⟨hplaying, helapsed, fun t ht => ?_⟩
    obtain rfl : s.reportedTime s.clk = t := Option.some.inj ht
    exact hb.reportedTime_le (le_refl _)
  | wroteLo t ht | wroteHi t ht =>
    rw [ht] at htick
    exact ⟨hplaying, helapsed, htick⟩
  | fired | notFired => exact ⟨hplaying, helapsed, nofun⟩
  | _ => simpa [State.AccumulatorBounded] using hb

/-- Settles O56: every operation keeps the accumulator's bounds. -/
theorem accumulatorBoundedKept : Obligations.AccumulatorBoundedKept :=
  fun _ _ => step_keeps (fun _ _ _ h => h) Effect.accumulatorBounded

end Sys2Proof.Machine
end

section
/-! SUPPORT. Block reset (R43). -/

namespace Sys2Proof.Machine

/-- No interrupt is possible while the latch is clear (R43, R108). -/
theorem evaluate_not_armed (t c : Time) (tie gie : Bool) : evaluate t c false tie gie = false := by
  simp [evaluate]

/-- Settles O52: each field is what `State.resetWith` writes, and the latch is clear. -/
theorem blockResetValues : Obligations.BlockResetValues := by
  intro cfg clk tie gie
  refine ⟨rfl, rfl, rfl, rfl, rfl, rfl, rfl, rfl, rfl, rfl, rfl, rfl, rfl, rfl, rfl, rfl, ?_⟩
  exact fun t c a b => evaluate_not_armed t c a b

section
variable {cfg : Config} {clk : Time} {tie gie : Bool}

/-- Block reset is Stopped (R25, R43). -/
theorem State.resetWith_lifecycleLegal : (State.resetWith cfg clk tie gie).LifecycleLegal := ⟨nofun, nofun⟩

/-- Block reset is not playing, has time 0 and has no tick in flight (R30, R43). -/
theorem State.resetWith_accumulatorBounded : (State.resetWith cfg clk tie gie).AccumulatorBounded :=
  ⟨nofun, Nat.zero_le _, nofun⟩

/-- Block reset has no Watcher, a clear latch, CMP_INIT, no tick in flight and nothing delivered (R43, R132). -/
theorem State.resetWith_watcherConsistent : (State.resetWith cfg clk tie gie).WatcherConsistent :=
  ⟨fun _ => ⟨rfl, rfl, rfl, rfl⟩, nofun⟩

/-- Block reset has no fatal error (R34, R43). -/
theorem State.resetWith_fatalInWindow : (State.resetWith cfg clk tie gie).FatalInWindow := nofun

/-- Block reset has delivered nothing (R43, R111). -/
theorem State.resetWith_deliveredCodes : (State.resetWith cfg clk tie gie).DeliveredCodes := nofun

/-- Block reset has no fatal error and has refused nothing (R34, R35, R43). -/
theorem State.resetWith_safe : (State.resetWith cfg clk tie gie).Safe := ⟨rfl, rfl⟩

end

/-- Settles O53: the memory at block reset is the initial one, and the other invariants hold of what block reset writes. -/
theorem resetMeetsTheInvariants : Obligations.ResetMeetsTheInvariants := by
  refine ⟨fun cfg clk tie gie hmem => ⟨hmem, ?_⟩, rfl, by decide⟩
  exact ⟨State.resetWith_lifecycleLegal, State.resetWith_accumulatorBounded, State.resetWith_watcherConsistent,
    State.resetWith_fatalInWindow, State.resetWith_deliveredCodes, State.resetWith_safe⟩

end Sys2Proof.Machine
end

section
/-! SUPPORT. What any operation can make of the memory (R45, R52, R60). -/

namespace Sys2Proof.Machine

/-- R45: every change of the memory is a store of at least one byte at the operation's own offset. A window word that the
block writes stands here as the software store of it, which inside the memory region writes the same bytes. -/
theorem Effect.mem_cases {s t : State} {i : Instr} (he : Effect s i t) :
    t.mem = s.mem ∨ ∃ off n v, 0 < n ∧ storedBytes i = (off, n) ∧ t.mem = (s.memStore (s.cfg.addr off) n v).mem := by
  cases he with
  | zeroLo hv | wroteLo _ _ hv =>
    exact .inr ⟨offTimeLo, wordBytes, _, by decide, rfl, by rw [State.memStore_valid _ hv]⟩
  | zeroHi hv | wroteHi _ _ hv =>
    exact .inr ⟨offTimeHi, wordBytes, _, by decide, rfl, by rw [State.memStore_valid _ hv]⟩
  | stored _ off n v _ hn hs => exact .inr ⟨off, n, v, hn, hs, rfl⟩
  | watchedLo _ v _ hs | watchedHi _ v _ hs => exact .inr ⟨_, _, v, by decide, hs, rfl⟩
  | _ => exact .inl rfl

/-- Every operation keeps the memory in canonical form (R46, R60). -/
theorem Effect.memoryCanonical {s t : State} {i : Instr} (he : Effect s i t) (h : s.MemoryCanonical) :
    t.MemoryCanonical := by
  unfold State.MemoryCanonical at *
  rcases he.mem_cases with hm | ⟨off, n, v, hn, -, hm⟩
  · rwa [hm]
  · rw [hm]
    exact s.memStore_wf v hn h

/-- Settles O54: every operation keeps the canonical form. -/
theorem memoryCanonicalKept : Obligations.MemoryCanonicalKept :=
  fun _ _ => step_keeps (fun _ _ _ h => h) Effect.memoryCanonical

/-- Settles O21: an operation changes the memory by a store of its own bytes or not at all. -/
theorem memoryFrame : Obligations.MemoryFrame := by
  intro s t i a h ha
  rcases (exec_effect h).2.mem_cases with hm | ⟨off, n, v, -, hs, hm⟩
  · rw [hm]
  · rw [hs] at ha
    rw [hm, s.memStore_read_outside _ n v ha]

/-- Settles O42: the word read back, and the bytes outside it. -/
theorem readReturnsLatestWrite : Obligations.ReadReturnsLatestWrite := by
  intro m a w h ha
  exact ⟨Memory.readWord_writeBytes w h ha, fun b hb => Memory.read_writeBytes_outside (by simpa using hb)⟩

end Sys2Proof.Machine
end

section
/-! SUPPORT. What a load of a part of a window word returns (R49, R50). -/

namespace Sys2Proof

/-- Bit `k` of a number is bit `k % 8` of its byte number `k / 8` (R49). -/
theorem getLsbD_ofLeBytes {w : Nat} (bs : List Byte) {k : Nat} (hk : k < w) :
    (ofLeBytes w bs).getLsbD k = (bs.getD (k / 8) 0#8).getLsbD (k % 8) := by
  induction bs generalizing k with
  | nil => simp [ofLeBytes]
  | cons b bs ih =>
    simp only [ofLeBytes, BitVec.getLsbD_or, BitVec.getLsbD_shiftLeft, BitVec.getLsbD_setWidth]
    by_cases h8 : k < 8
    · simp [hk, h8, Nat.div_eq_of_lt h8, Nat.mod_eq_of_lt h8]
    · obtain ⟨j, rfl⟩ : ∃ j, k = j + 8 := ⟨k - 8, by omega⟩
      simp [hk, ih (by omega : j < w)]

/-- The offset of a byte of a window word does not wrap. -/
theorem toNat_offset_add {off : BitVec 8} {k : Nat} (hoff : off.toNat ≤ 0x24) (hk : k < 4) :
    (off + BitVec.ofNat 8 k).toNat = off.toNat + k := by
  rw [BitVec.toNat_add, BitVec.toNat_ofNat]
  omega

end Sys2Proof

namespace Sys2Proof.Machine

/-- Byte number `j` of a read of `n` bytes. -/
theorem Memory.getD_readBytes (m : Memory) (a n j : Nat) :
    (m.readBytes a n).getD j 0#8 = if j < n then m.read (a + j) else 0#8 := by
  induction n generalizing a j with
  | zero => simp [Memory.readBytes]
  | succ n ih =>
    cases j with
    | zero => simp [Memory.readBytes]
    | succ j =>
      rw [Memory.readBytes, List.getD_cons_succ, ih]
      simp only [Nat.add_lt_add_iff_right, Nat.add_assoc, Nat.add_comm 1]

/-- R50: `n` bytes read at byte `k` of a word are the word's bits from `8k` up. -/
theorem Memory.ofLeBytes_readBytes_add (m : Memory) (a : Nat) {k n : Nat} (h : k + n ≤ 4) :
    ofLeBytes 32 (m.readBytes (a + k) n) = ((m.readWord a).extractLsb' (8 * k) (8 * n)).setWidth 32 := by
  apply BitVec.eq_of_getLsbD_eq
  intro b hb
  rw [getLsbD_ofLeBytes _ hb, Memory.getD_readBytes, BitVec.getLsbD_setWidth, BitVec.getLsbD_extractLsb']
  by_cases hn : b < 8 * n
  · have hbyte : (8 * k + b) / 8 = k + b / 8 := by omega
    rw [if_pos (by omega), Memory.readWord, getLsbD_ofLeBytes _ (by omega), Memory.getD_readBytes, if_pos (by omega),
      hbyte, Nat.mul_add_mod, Nat.add_assoc]
    simp [hb, hn]
  · rw [if_neg (by omega)]
    simp [hn]

/-- A part of a valid window is valid (R47, R115). -/
theorem State.WindowValid.firstInvalid_eq_none {s : State} (h : s.WindowValid) {off n : Nat} (hlo : 0x18 ≤ off)
    (hhi : off + n ≤ 0x28) : s.cfg.firstInvalid (s.cfg.addr off) n = none :=
  Config.firstInvalid_none_sub h (by simp only [Config.addr, offTimeLo]; omega)
    (by simp only [Config.addr, offTimeLo, windowBytes_eq]; omega)

/-- R50, R97: a load inside a word of a valid window returns the word's bits and changes nothing else. -/
theorem State.WindowValid.load_eq {s : State} (h : s.WindowValid) {off k n : Nat} (hlo : 0x18 ≤ off)
    (hhi : off ≤ 0x24) (hk : k + n ≤ 4) :
    s.load (off + k) n = { s with loaded := s.loaded ++
      [((s.mem.readWord (s.cfg.addr off)).extractLsb' (8 * k) (8 * n)).setWidth 32] } := by
  have hv : s.cfg.firstInvalid (s.cfg.addr (off + k)) n = none := h.firstInvalid_eq_none (by omega) (by omega)
  rcases s.load_eq (off + k) n with ⟨-, he⟩ | ⟨b, hb, -⟩
  · rw [he, ← Memory.ofLeBytes_readBytes_add _ _ hk, Config.addr, Config.addr, Nat.add_assoc]
  · rw [hv] at hb
    cases hb

/-- Settles O41: a byte is one byte of its word, a halfword two. -/
theorem subwordLoadsSeeTheWord : Obligations.SubwordLoadsSeeTheWord := by
  intro s off k hf hw hoff
  obtain ⟨hlo, hhi⟩ : 0x18 ≤ off.toNat ∧ off.toNat ≤ 0x24 := by
    fin_cases hoff <;> decide
  refine ⟨fun hk => ?_, fun hk => ?_⟩
  · rw [exec, execLb, State.act_of_fatal_none hf, toNat_offset_add hhi hk, hw.load_eq hlo hhi (by omega)]
  · rw [exec, execLh, State.act_of_fatal_none hf, toNat_offset_add hhi (by omega), hw.load_eq hlo hhi (by omega),
      ← Nat.mul_assoc]

end Sys2Proof.Machine
end

section
/-! SUPPORT. A machine is refused for its BASE alone (R47): nothing that it runs answers a refusal. -/

namespace Sys2Proof

/-- R47, in numbers. -/
theorem Config.ok_iff {c : Config} : c.ok = true ↔ c.base.toNat % 4 = 0 ∧ c.base.toNat + 0x27 ≤ 2 ^ 32 - 1 :=
  decide_eq_true_iff

end Sys2Proof

namespace Sys2Proof.Machine

/-- A step of any agent is never refused. -/
theorem State.act_ne_refused (s t : State) (r : Refusal) : s.act t ≠ .refused r := by
  unfold State.act
  cases s.fatal <;> simp

/-- No operation's meaning ends in a refusal. -/
theorem exec_ne_refused (i : Instr) (s : State) (r : Refusal) : exec i s ≠ .refused r := by
  cases hf : s.fatal with
  | none =>
    obtain ⟨t, ht⟩ := exec_completes i hf
    simp [ht]
  | some a => simp [exec_fatal i hf]

/-- A fetched operation is never refused by the machine: a reserved word's refusal is the mark in the next state (R75). -/
theorem State.run_ne_refused (op : List Byte) (s : State) (r : Refusal) : State.run op s ≠ .refused r := by
  unfold State.run
  cases decodeOp op with
  | ok i => exact exec_ne_refused i s r
  | error e => exact s.act_ne_refused _ r

/-- A machine whose BASE meets R47 is never refused. -/
theorem step_ne_refused {s : State} (hok : s.cfg.ok = true) (r : Refusal) : step s ≠ .refused r := by
  rw [step, if_pos hok]
  cases s.fatal with
  | some a => simp
  | none =>
    cases s.fetch with
    | none => simp
    | some p => exact p.2.run_ne_refused p.1 r

/-- Settles O9: `step` refuses a machine that breaks R47 at once, and nothing it runs is refused. -/
theorem brokenConfigurationRefused : Obligations.BrokenConfigurationRefused := by
  intro s
  rw [← Config.ok_iff]
  refine ⟨fun h hok => step_ne_refused hok _ h, fun h => ?_⟩
  rw [step, if_neg h]

end Sys2Proof.Machine
end

section
/-! SUPPORT. The decoder against the encoder (R68 to R74): what an instruction's word decodes to, and which word an
instruction was decoded from. -/

namespace Sys2Proof

/-! ### From an instruction to its word and back -/

section
variable (off : BitVec 8) (operand : List Byte)

theorem decodeWord_sb :
    decodeWord (busOp 0x2000#16 off) operand = .ok (.sb off ((ofLeBytes 32 operand).setWidth 8)) := by
  simp [decodeWord, decodeStore, busOp_extract_high, busOp_extract_offset]

theorem decodeWord_sh :
    decodeWord (busOp 0x2800#16 off) operand = .ok (.sh off ((ofLeBytes 32 operand).setWidth 16)) := by
  simp [decodeWord, decodeStore, busOp_extract_high, busOp_extract_offset]

theorem decodeWord_sw :
    decodeWord (busOp 0x3000#16 off) operand = .ok (storeWordForm off (ofLeBytes 32 operand)) := by
  simp [decodeWord, decodeStore, busOp_extract_high, busOp_extract_offset]

theorem decodeWord_lb : decodeWord (busOp 0x4000#16 off) operand = .ok (.lb off) := by
  simp [decodeWord, decodeLoad, busOp_extract_high, busOp_extract_offset]

theorem decodeWord_lh : decodeWord (busOp 0x4800#16 off) operand = .ok (.lh off) := by
  simp [decodeWord, decodeLoad, busOp_extract_high, busOp_extract_offset]

theorem decodeWord_lw : decodeWord (busOp 0x5000#16 off) operand = .ok (loadWordForm off) := by
  simp [decodeWord, decodeLoad, busOp_extract_high, busOp_extract_offset]

end

/-- The instruction that an instruction's word stands for with other operand bytes: the operand alone changes, but for a
general word access at a named offset, whose word is that of the named form (R74). `decodeWord_opWord` ties it to the
decoder. -/
def Instr.withOperand (operand : List Byte) : Instr → Instr
  | .swTimecmpLo _ => .swTimecmpLo (ofLeBytes 32 operand)
  | .swTimecmpHi _ => .swTimecmpHi (ofLeBytes 32 operand)
  | .swTimeLo _ => .swTimeLo (ofLeBytes 32 operand)
  | .swTimeHi _ => .swTimeHi (ofLeBytes 32 operand)
  | .sb off _ => .sb off ((ofLeBytes 32 operand).setWidth 8)
  | .sh off _ => .sh off ((ofLeBytes 32 operand).setWidth 16)
  | .sw off _ => storeWordForm off (ofLeBytes 32 operand)
  | .lw off => loadWordForm off
  | .clkSet _ => .clkSet (ofLeBytes 64 operand)
  | i => i

/-- The word of any instruction decodes, whatever the operand bytes. -/
theorem decodeWord_opWord (i : Instr) (operand : List Byte) :
    decodeWord (opWord i) operand = .ok (i.withOperand operand) := by
  cases i with
  | sb off v => exact decodeWord_sb off operand
  | sh off v => exact decodeWord_sh off operand
  | sw off v => exact decodeWord_sw off operand
  | lb off => exact decodeWord_lb off operand
  | lh off => exact decodeWord_lh off operand
  | lw off => exact decodeWord_lw off operand
  | swTimecmpLo w => exact decodeWord_sw (offByte offCmpLo) operand
  | swTimecmpHi w => exact decodeWord_sw (offByte offCmpHi) operand
  | swTimeLo w => exact decodeWord_sw (offByte offTimeLo) operand
  | swTimeHi w => exact decodeWord_sw (offByte offTimeHi) operand
  | clkSet t => simp [opWord, decodeWord, decodeStep, Instr.withOperand]
  | csrSet tie gie => cases tie <;> cases gie <;> rfl
  | _ => rfl

/-- The four offsets that have a word form of their own (R70). -/
theorem isNamedOffset_eq_false {off : BitVec 8} :
    isNamedOffset off = false ↔
      off ≠ offByte offTimeLo ∧ off ≠ offByte offTimeHi ∧ off ≠ offByte offCmpLo ∧ off ≠ offByte offCmpHi := by
  simp [isNamedOffset, and_assoc]

theorem storeWordForm_of_not_named {off : BitVec 8} (v : Word) (h : isNamedOffset off = false) :
    storeWordForm off v = .sw off v := by
  obtain ⟨h1, h2, h3, h4⟩ := isNamedOffset_eq_false.1 h
  rw [storeWordForm, if_neg h1, if_neg h2, if_neg h3, if_neg h4]

theorem loadWordForm_of_not_named {off : BitVec 8} (h : isNamedOffset off = false) : loadWordForm off = .lw off := by
  obtain ⟨h1, h2, h3, h4⟩ := isNamedOffset_eq_false.1 h
  rw [loadWordForm, if_neg h1, if_neg h2, if_neg h3, if_neg h4]

/-- A well-formed instruction with its own operand bytes is itself. -/
theorem Instr.withOperand_operandOf {i : Instr} (h : i.wellFormed = true) : i.withOperand (operandOf i) = i := by
  have hword (v : Word) : ofLeBytes 32 (leBytes 4 v) = v := ofLeBytes_leBytes 4 v (by decide)
  cases i with
  | swTimecmpLo w | swTimecmpHi w | swTimeLo w | swTimeHi w => simp only [withOperand, operandOf, hword]
  | sb off v | sh off v => simp [withOperand, operandOf, hword]
  | sw off v =>
    simp only [withOperand, operandOf, hword]
    exact storeWordForm_of_not_named v (by simpa [wellFormed] using h)
  | lw off => exact loadWordForm_of_not_named (by simpa [wellFormed] using h)
  | clkSet t => simp only [withOperand, operandOf, ofLeBytes_leBytes 8 t (by decide)]
  | _ => rfl

/-- An instruction's operand is as long as its word announces (R68). -/
theorem operandOf_length (i : Instr) : (operandOf i).length = operandBytes (opWord i) := by
  open Laws.EncodeLength in
  cases i with
  | swTimecmpLo w => exact swTimecmpLo w
  | swTimecmpHi w => exact swTimecmpHi w
  | swTimeLo w => exact swTimeLo w
  | swTimeHi w => exact swTimeHi w
  | sb off v => exact sb off v
  | sh off v => exact sh off v
  | sw off v => exact sw off v
  | lb off => exact lb off
  | lh off => exact lh off
  | lw off => exact lw off
  | clkSet t => exact clkSet t
  | csrSet tie gie => exact csrSet tie gie
  | _ => rfl

/-- One whole operation decodes as its word with its operand. -/
theorem decodeOp_word (op : OpWord) (operand : List Byte) : decodeOp (leBytes 2 op ++ operand) = decodeWord op operand := by
  obtain ⟨hbytes, hop⟩ := leBytes_two op
  simp only [hbytes, List.cons_append, List.nil_append, decodeOp, hop]

/-- Settles O2: the encoding is split off exactly, its word decodes with its operand, and the operand bytes give the operand
back. -/
theorem decodeEncodeRoundTrip : Obligations.DecodeEncodeRoundTrip := by
  intro i rest h
  refine Machine.decode_eq_ok.2 ⟨encode i, splitOp_word (opWord i) (operandOf i) rest (operandOf_length i), ?_⟩
  rw [encode, decodeOp_word, decodeWord_opWord, Instr.withOperand_operandOf h]

/-- Settles O1, by running the decoder on the eight words. -/
theorem sampleWordsDecode : Obligations.SampleWordsDecode :=
  ⟨rfl, rfl, rfl, rfl, rfl, rfl, rfl, rfl⟩

end Sys2Proof
end

section
/-! SUPPORT. From a word to the instruction it decodes to, format by format: the instruction is well-formed and the word is
its own (R68 to R74). -/

namespace Sys2Proof

/-! ### A word from its fields -/

section
variable (op : OpWord)

/-- The fields of a CMD word (R69). -/
theorem commandWord_fields : op.extractLsb' 13 3 ++ op.extractLsb' 3 10 ++ op.extractLsb' 0 3 = op := by
  grind

/-- The fields of a BUSW or BUSR word (R70). -/
theorem busWord_fields :
    op.extractLsb' 13 3 ++ op.extractLsb' 11 2 ++ op.extractLsb' 8 3 ++ op.extractLsb' 0 8 = op := by
  grind

/-- The fields of a STEP word (R71). -/
theorem stepWord_fields :
    op.extractLsb' 13 3 ++ op.extractLsb' 5 8 ++ op.extractLsb' 3 2 ++ op.extractLsb' 0 3 = op := by
  grind

/-- The codes of a field of two bits. -/
theorem twoBits_cases (c : BitVec 2) : c = 0#2 ∨ c = 1#2 ∨ c = 2#2 ∨ c = 3#2 := by
  decide +revert

/-- The codes of a field of three bits. -/
theorem threeBits_cases (c : BitVec 3) :
    c = 0#3 ∨ c = 1#3 ∨ c = 2#3 ∨ c = 3#3 ∨ c = 4#3 ∨ c = 5#3 ∨ c = 6#3 ∨ c = 7#3 := by
  decide +revert

/-- The two enable bits of a CSR_SET word (R71). -/
theorem stepWord_enables : op.extractLsb' 3 2 = BitVec.ofBool (op.getLsbD 4) ++ BitVec.ofBool (op.getLsbD 3) := by
  grind

end

/-! ### The decoder's formats -/

/-- R74: a word store's form is the named one wherever there is one. -/
theorem storeWordForm_wellFormed (off : BitVec 8) (v : Word) : (storeWordForm off v).wellFormed = true := by
  unfold storeWordForm
  split_ifs with h1 h2 h3 h4
  case neg => simp [Instr.wellFormed, isNamedOffset_eq_false.2 ⟨h1, h2, h3, h4⟩]
  all_goals rfl

theorem opWord_storeWordForm (off : BitVec 8) (v : Word) : opWord (storeWordForm off v) = busOp 0x3000#16 off := by
  unfold storeWordForm
  split_ifs <;> simp [opWord, *]

/-- R74: a word load's form is the named one wherever there is one. -/
theorem loadWordForm_wellFormed (off : BitVec 8) : (loadWordForm off).wellFormed = true := by
  unfold loadWordForm
  split_ifs with h1 h2 h3 h4
  case neg => simp [Instr.wellFormed, isNamedOffset_eq_false.2 ⟨h1, h2, h3, h4⟩]
  all_goals rfl

theorem opWord_loadWordForm (off : BitVec 8) : opWord (loadWordForm off) = busOp 0x5000#16 off := by
  unfold loadWordForm
  split_ifs <;> simp [opWord, *]

section
variable {op : OpWord} {i : Instr}

theorem decodeCommand_ok (hclass : op.extractLsb' 13 3 = 0#3) (h : decodeCommand op = .ok i) :
    i.wellFormed = true ∧ opWord i = op := by
  unfold decodeCommand at h
  split at h
  · cases h
  · rename_i hzero
    rw [← commandWord_fields op, hclass, not_not.1 hzero]
    split at h <;> rename_i hcode <;> cases h <;> rw [hcode] <;> exact ⟨rfl, rfl⟩

theorem decodeStore_ok {v : Word} (hclass : op.extractLsb' 13 3 = 1#3) (h : decodeStore op v = .ok i) :
    i.wellFormed = true ∧ opWord i = op := by
  simp only [decodeStore] at h
  split at h
  · cases h
  · rename_i hzero
    rw [← busWord_fields op, hclass, not_not.1 hzero]
    split at h <;> rename_i hsize <;> cases h <;> rw [hsize]
    · exact ⟨rfl, rfl⟩
    · exact ⟨rfl, rfl⟩
    · exact ⟨storeWordForm_wellFormed _ v, opWord_storeWordForm _ v⟩

theorem decodeLoad_ok (hclass : op.extractLsb' 13 3 = 2#3) (h : decodeLoad op = .ok i) :
    i.wellFormed = true ∧ opWord i = op := by
  simp only [decodeLoad] at h
  split at h
  · cases h
  · rename_i hzero
    rw [← busWord_fields op, hclass, not_not.1 hzero]
    split at h <;> rename_i hsize <;> cases h <;> rw [hsize]
    · exact ⟨rfl, rfl⟩
    · exact ⟨rfl, rfl⟩
    · exact ⟨loadWordForm_wellFormed _, opWord_loadWordForm _⟩

/-- A STEP word with the code of CSR_SET is CSR_SET of its bits 4 and 3 (R71). -/
theorem opWord_csrSet (hclass : op.extractLsb' 13 3 = 3#3) (hzero : op.extractLsb' 5 8 = 0#8)
    (hcode : op.extractLsb' 0 3 = 2#3) : opWord (.csrSet (op.getLsbD 4) (op.getLsbD 3)) = op := by
  conv_rhs => rw [← stepWord_fields op, hclass, hzero, hcode, stepWord_enables]
  cases op.getLsbD 4 <;> cases op.getLsbD 3 <;> rfl

theorem decodeStep_ok {t : Time} (hclass : op.extractLsb' 13 3 = 3#3) (h : decodeStep op t = .ok i) :
    i.wellFormed = true ∧ opWord i = op := by
  unfold decodeStep at h
  split at h
  · cases h
  rename_i hzero
  split at h
  · rename_i hcode
    cases h
    exact ⟨rfl, opWord_csrSet hclass (not_not.1 hzero) hcode⟩
  rename_i hne
  split at h
  · cases h
  rename_i hbits
  rw [← stepWord_fields op, hclass, not_not.1 hzero, not_not.1 hbits]
  rcases threeBits_cases (op.extractLsb' 0 3) with hcode | hcode | hcode | hcode | hcode | hcode | hcode | hcode
  case inr.inr.inl => exact absurd hcode hne
  all_goals
    rw [hcode] at h ⊢
    cases h
    exact ⟨rfl, rfl⟩

/-- A word that decodes is the word of the instruction it decodes to, and that instruction is well-formed (R74). -/
theorem decodeWord_ok {operand : List Byte} (h : decodeWord op operand = .ok i) :
    i.wellFormed = true ∧ opWord i = op := by
  unfold decodeWord at h
  split at h
  · exact decodeCommand_ok ‹_› h
  · exact decodeStore_ok ‹_› h
  · exact decodeLoad_ok ‹_› h
  · exact decodeStep_ok ‹_› h
  · cases h

/-- An operation that decodes is a word with its operand bytes. -/
theorem decodeOp_ok {bs : List Byte} (h : decodeOp bs = .ok i) : ∃ op operand, decodeWord op operand = .ok i := by
  unfold decodeOp at h
  split at h
  · exact ⟨_, _, h⟩
  · cases h

end

/-- Settles O3: what is decoded is decoded from a word, and what a word decodes to is well-formed. -/
theorem decodedInstructionsWellFormed : Obligations.DecodedInstructionsWellFormed := by
  intro bs rest i h
  obtain ⟨op, -, hop⟩ := Machine.decode_eq_ok.1 h
  obtain ⟨w, operand, hw⟩ := decodeOp_ok hop
  exact (decodeWord_ok hw).1

end Sys2Proof
end

section
/-! SUPPORT. The opcode table against the decoder (R74): each row is some instruction's, and a word that matches a row is the
word of an instruction of that row. -/

namespace Sys2Proof

/-! ### The row of an instruction -/

/-- The bits of an instruction's word that its table row fixes: all but the offset of a general bus access and the two
enables of CSR_SET. -/
def Instr.rowMask : Instr → OpWord
  | .sb _ _ | .sh _ _ | .sw _ _ | .lb _ | .lh _ | .lw _ => 0xFF00#16
  | .csrSet _ _ => 0xFFE7#16
  | _ => 0xFFFF#16

/-- The value of those bits. -/
def Instr.rowPattern : Instr → OpWord
  | .sb _ _ => 0x2000#16
  | .sh _ _ => 0x2800#16
  | .sw _ _ => 0x3000#16
  | .lb _ => 0x4000#16
  | .lh _ => 0x4800#16
  | .lw _ => 0x5000#16
  | .csrSet _ _ => 0x6002#16
  | i => opWord i

/-- An instruction's row of the opcode table (`Instr.row_mem`, `exists_row_of_mem`). -/
def Instr.row (i : Instr) : OpRow := ⟨i.mnemonic, i.rowPattern, i.rowMask⟩

/-- One instruction of each row, in the order of the table. -/
def rowSamples : List Instr :=
  [.start, .play, .pause, .stop, .reset,
    .swTimecmpLo 0#32, .swTimecmpHi 0#32, .swTimeLo 0#32, .swTimeHi 0#32, .sb 0#8 0#8, .sh 0#8 0#16, .sw 0#8 0#32,
    .lwTimeLo, .lwTimeHi, .lwTimecmpLo, .lwTimecmpHi, .lb 0#8, .lh 0#8, .lw 0#8,
    .tick, .clkSet 0#64, .csrSet false false, .tWlo, .tWhi, .tEval, .hZlo, .hZhi]

theorem opcodeTable_eq : opcodeTable = rowSamples.map Instr.row := rfl

/-- Every row of the table is some instruction's. -/
theorem exists_row_of_mem {r : OpRow} (h : r ∈ opcodeTable) : ∃ i : Instr, i.row = r := by
  rw [opcodeTable_eq, List.mem_map] at h
  obtain ⟨i, -, hi⟩ := h
  exact ⟨i, hi⟩

/-- Every instruction's row is in the table. -/
theorem Instr.row_mem (i : Instr) : i.row ∈ opcodeTable := by
  cases i <;>
    simp only [Instr.row, Instr.mnemonic, Instr.rowPattern, Instr.rowMask, opWord] <;>
    decide

/-- The bits of the high byte's mask. -/
theorem getElem_highByte {k : Nat} (hk : k < 16) : (0xFF00#16)[k] = decide (8 ≤ k) := by decide +revert

/-- The high byte of a bus word does not depend on its offset. -/
theorem busOp_and_highByte (classSize : OpWord) (off : BitVec 8) :
    busOp classSize off &&& 0xFF00#16 = classSize &&& 0xFF00#16 := by
  ext k hk
  by_cases h : k < 8
  · simp [getElem_highByte, Nat.not_le.2 h]
  · simp [busOp, BitVec.getLsbD_of_ge off k (by omega)]

/-- A word whose high byte is a bus class and size is a bus word. -/
theorem busOp_extract_of_and_highByte {op classSize : OpWord} (h : op &&& 0xFF00#16 = classSize) :
    busOp classSize (op.extractLsb' 0 8) = op := by
  subst h
  ext k hk
  by_cases h8 : k < 8
  · simp [busOp, getElem_highByte, h8, hk]
  · simp [busOp, getElem_highByte, Nat.le_of_not_lt h8]

/-- A word that matches the row of CSR_SET is CSR_SET of its bits 4 and 3 (R71). -/
theorem opWord_csrSet_of_and_mask {op : OpWord} (h : op &&& 0xFFE7#16 = 0x6002#16) :
    opWord (.csrSet (op.getLsbD 4) (op.getLsbD 3)) = op := by
  have hfield (start n : Nat) :
      op.extractLsb' start n &&& (0xFFE7#16).extractLsb' start n = (0x6002#16).extractLsb' start n := by
    rw [← h, BitVec.extractLsb'_and]
  exact opWord_csrSet (BitVec.and_allOnes.symm.trans (hfield 13 3)) (BitVec.and_allOnes.symm.trans (hfield 5 8))
    (BitVec.and_allOnes.symm.trans (hfield 0 3))

/-- An instruction's word matches its row. -/
theorem Instr.row_matches (i : Instr) : i.row.matches (opWord i) = true := by
  simp only [OpRow.matches, Instr.row, beq_iff_eq]
  cases i with
  | sb | sh | sw | lb | lh | lw => exact busOp_and_highByte _ _
  | csrSet tie gie => cases tie <;> cases gie <;> rfl
  | _ => exact BitVec.and_allOnes

/-- A word that matches a row is the word of an instruction of that row. -/
theorem exists_opWord_of_matches {r : OpRow} {op : OpWord} (hr : r ∈ opcodeTable) (hm : r.matches op = true) :
    ∃ i : Instr, i.row = r ∧ opWord i = op := by
  obtain ⟨i, rfl⟩ := exists_row_of_mem hr
  simp only [OpRow.matches, Instr.row, beq_iff_eq] at hm
  cases i with
  | sb off v => exact ⟨.sb (op.extractLsb' 0 8) v, rfl, busOp_extract_of_and_highByte hm⟩
  | sh off v => exact ⟨.sh (op.extractLsb' 0 8) v, rfl, busOp_extract_of_and_highByte hm⟩
  | sw off v => exact ⟨.sw (op.extractLsb' 0 8) v, rfl, busOp_extract_of_and_highByte hm⟩
  | lb off => exact ⟨.lb (op.extractLsb' 0 8), rfl, busOp_extract_of_and_highByte hm⟩
  | lh off => exact ⟨.lh (op.extractLsb' 0 8), rfl, busOp_extract_of_and_highByte hm⟩
  | lw off => exact ⟨.lw (op.extractLsb' 0 8), rfl, busOp_extract_of_and_highByte hm⟩
  | csrSet tie gie => exact ⟨.csrSet (op.getLsbD 4) (op.getLsbD 3), rfl, opWord_csrSet_of_and_mask hm⟩
  | _ => exact ⟨_, rfl, hm.symm.trans BitVec.and_allOnes⟩

/-- A row's weight is a matter of its mask, so a general bus access's row is lighter than a row that fixes every bit. -/
theorem Instr.row_weight_lt {i j : Instr} (hi : i.rowMask = 0xFF00#16) (hj : j.rowMask = 0xFFFF#16) :
    i.row.weight < j.row.weight := by
  simp only [OpRow.weight, Instr.row, hi, hj]
  decide

/-- What an instruction's word decodes to is of the instruction's own row, or of a heavier one (R74). -/
theorem Instr.row_withOperand (i : Instr) (operand : List Byte) :
    (i.withOperand operand).row = i.row ∨ i.row.weight < (i.withOperand operand).row.weight := by
  cases i with
  | sw | lw =>
    simp only [Instr.withOperand, storeWordForm, loadWordForm]
    split_ifs
    case neg => exact .inl rfl
    all_goals exact .inr (Instr.row_weight_lt rfl rfl)
  | _ => exact .inl rfl

/-! ### The heaviest row -/

section
variable {op : OpWord} {operand : List Byte} {i : Instr}

/-- `bestRow` is the library's `argmax` of the weight over the rows that match. -/
theorem bestRow_eq_argmax (op : OpWord) :
    bestRow op = (opcodeTable.filter (fun r => r.matches op)).argmax OpRow.weight := by
  unfold bestRow List.argmax
  congr
  funext best r
  cases best <;> rfl

/-- No row is the best where none matches. -/
theorem bestRow_eq_none : bestRow op = none ↔ ∀ r ∈ opcodeTable, r.matches op = false := by
  simp [bestRow_eq_argmax]

/-- The best row matches, and no row that matches is heavier. -/
theorem bestRow_eq_some {r : OpRow} (h : bestRow op = some r) :
    (r ∈ opcodeTable ∧ r.matches op = true) ∧
      ∀ r' ∈ opcodeTable, r'.matches op = true → r'.weight ≤ r.weight := by
  rw [bestRow_eq_argmax] at h
  refine ⟨List.mem_filter.1 (List.argmax_mem h), fun r' hr' hm => ?_⟩
  exact List.le_of_mem_argmax (List.mem_filter.2 ⟨hr', hm⟩) h

/-- A word that decodes has the row of its instruction as the best one. -/
theorem bestRow_of_decodeWord_ok (h : decodeWord op operand = .ok i) : bestRow op = some i.row := by
  obtain ⟨-, hop⟩ := decodeWord_ok h
  have hmatch : i.row.matches op = true := hop ▸ i.row_matches
  cases hbest : bestRow op with
  | none => simp [bestRow_eq_none.1 hbest _ i.row_mem] at hmatch
  | some r =>
    obtain ⟨⟨hr, hm⟩, hmax⟩ := bestRow_eq_some hbest
    obtain ⟨j, rfl, rfl⟩ := exists_opWord_of_matches hr hm
    obtain rfl : j.withOperand operand = i := by simpa [decodeWord_opWord] using h
    rcases j.row_withOperand operand with heq | hlt
    · rw [heq]
    · exact absurd (hmax _ (Instr.row_mem _) hmatch) (Nat.not_le.2 hlt)

/-- A word that does not decode matches no row. -/
theorem bestRow_of_decodeWord_error {e : DecodeError} (h : decodeWord op operand = .error e) : bestRow op = none := by
  refine bestRow_eq_none.2 fun r hr => Bool.eq_false_iff.2 fun hm => ?_
  obtain ⟨j, -, rfl⟩ := exists_opWord_of_matches hr hm
  rw [decodeWord_opWord] at h
  cases h

end

/-- No two rows have the same pattern. -/
theorem opcodeTable_pattern_nodup : (opcodeTable.map OpRow.pattern).Nodup := by decide

/-- Settles O4: the best row is the decoded instruction's, a word that does not decode matches none, and two rows of one mask
that match one word have one pattern. -/
theorem decodeAgreesWithOpcodeTable : Obligations.DecodeAgreesWithOpcodeTable := by
  refine ⟨fun op operand => ?_, fun r r' op hr hr' hmask hm hm' => ?_⟩
  · cases h : decodeWord op operand with
    | ok i => exact ⟨i.row, bestRow_of_decodeWord_ok h, rfl⟩
    | error e => exact bestRow_of_decodeWord_error h
  · simp only [OpRow.matches, beq_iff_eq] at hm hm'
    exact List.inj_on_of_nodup_map opcodeTable_pattern_nodup hr hr' (by rw [← hm, ← hm', hmask])

end Sys2Proof
end

section
/-! SUPPORT. The reserved words (R75), format by format, and the step that meets one (R13, R35). -/

namespace Sys2Proof

section
variable {op : OpWord}

/-! ### The words that a format reserves (R75) -/

theorem decodeCommand_error_iff :
    (∃ e, decodeCommand op = .error e) ↔ op.extractLsb' 3 10 ≠ 0#10 ∨ 5 ≤ (op.extractLsb' 0 3).toNat := by
  unfold decodeCommand
  by_cases hzero : op.extractLsb' 3 10 = 0#10
  · rw [if_neg (not_not.2 hzero)]
    rcases threeBits_cases (op.extractLsb' 0 3) with hcode | hcode | hcode | hcode | hcode | hcode | hcode | hcode <;>
      simp [hcode, hzero]
  · simp [hzero]

theorem decodeStore_error_iff {v : Word} :
    (∃ e, decodeStore op v = .error e) ↔ op.extractLsb' 11 2 = 3#2 ∨ op.extractLsb' 8 3 ≠ 0#3 := by
  simp only [decodeStore]
  by_cases hzero : op.extractLsb' 8 3 = 0#3
  · rw [if_neg (not_not.2 hzero)]
    rcases twoBits_cases (op.extractLsb' 11 2) with hsize | hsize | hsize | hsize <;> simp [hsize, hzero]
  · simp [hzero]

theorem decodeLoad_error_iff :
    (∃ e, decodeLoad op = .error e) ↔ op.extractLsb' 11 2 = 3#2 ∨ op.extractLsb' 8 3 ≠ 0#3 := by
  simp only [decodeLoad]
  by_cases hzero : op.extractLsb' 8 3 = 0#3
  · rw [if_neg (not_not.2 hzero)]
    rcases twoBits_cases (op.extractLsb' 11 2) with hsize | hsize | hsize | hsize <;> simp [hsize, hzero]
  · simp [hzero]

theorem decodeStep_error_iff {t : Time} :
    (∃ e, decodeStep op t = .error e) ↔
      op.extractLsb' 5 8 ≠ 0#8 ∨ (op.extractLsb' 3 2 ≠ 0#2 ∧ op.extractLsb' 0 3 ≠ 2#3) := by
  unfold decodeStep
  by_cases hzero : op.extractLsb' 5 8 = 0#8
  · rw [if_neg (not_not.2 hzero)]
    by_cases hcsr : op.extractLsb' 0 3 = 2#3
    · simp [hzero, hcsr]
    · rw [if_neg hcsr]
      by_cases hbits : op.extractLsb' 3 2 = 0#2
      · rw [if_neg (not_not.2 hbits)]
        split <;> simp [hzero, hbits]
      · simp [hbits, hcsr]
  · simp [hzero]

/-- R75's list: a word is reserved by its class, or by the format that its class selects. -/
theorem decodeWord_error_iff {operand : List Byte} :
    (∃ e, decodeWord op operand = .error e) ↔
      (4 ≤ (op.extractLsb' 13 3).toNat) ∨
      (op.extractLsb' 13 3 = 0#3 ∧ (op.extractLsb' 3 10 ≠ 0#10 ∨ 5 ≤ (op.extractLsb' 0 3).toNat)) ∨
      ((op.extractLsb' 13 3 = 1#3 ∨ op.extractLsb' 13 3 = 2#3) ∧
        (op.extractLsb' 11 2 = 3#2 ∨ op.extractLsb' 8 3 ≠ 0#3)) ∨
      (op.extractLsb' 13 3 = 3#3 ∧
        (op.extractLsb' 5 8 ≠ 0#8 ∨ (op.extractLsb' 3 2 ≠ 0#2 ∧ op.extractLsb' 0 3 ≠ 2#3))) := by
  rcases threeBits_cases (op.extractLsb' 13 3) with hclass | hclass | hclass | hclass | hclass | hclass | hclass | hclass
  case inl => simp [decodeWord, hclass, decodeCommand_error_iff]
  case inr.inl => simp [decodeWord, hclass, decodeStore_error_iff]
  case inr.inr.inl => simp [decodeWord, hclass, decodeLoad_error_iff]
  case inr.inr.inr.inl => simp [decodeWord, hclass, decodeStep_error_iff]
  all_goals simp [decodeWord, hclass]

end

namespace Machine

/-- A reserved word at the head of the trace is picked, and its step sets the mark and nothing else (R13, R35, R75). -/
theorem step_of_reserved {s : State} {op rest : List Byte} {e : DecodeError} (hok : s.cfg.ok = true)
    (hf : s.fatal = none) (hs : splitOp s.trace = some (op, rest)) (hd : decodeOp op = .error e) :
    step s = .next { s with refused := true, trace := rest } := by
  obtain ⟨n, hn, -⟩ := length_of_splitOp hs
  have hp : s.pick s.trace.length s.trace = some (op, rest) :=
    hn ▸ State.pick_accepted hs (by simp [State.accepts, hd])
  simp [step, hok, hf, State.fetch, hp, State.run, hd, State.act, State.refuse]

end Machine

/-- Settles O5: the reserved words format by format, and the step that meets one. -/
theorem reservedWordsRefused : Obligations.ReservedWordsRefused :=
  ⟨fun _ _ => decodeWord_error_iff, fun _ _ _ _ => Machine.step_of_reserved⟩

end Sys2Proof
end

section
/-! SUPPORT. A tick's publish (R104 to R106), and the pair that it leaves in TIME_HI and TIME_LO (R78). -/

namespace Sys2Proof.Machine

/-- Two words stored one behind the other read back as the pair (R49, R60). -/
theorem Memory.joinHalves_readWord {m : Memory} {a : Nat} (hi lo : Word) (h : m.wf = true) (ha : a + 8 ≤ addrSpace) :
    let m' := (m.writeBytes a (leBytes 4 lo)).writeBytes (a + 4) (leBytes 4 hi)
    joinHalves (m'.readWord (a + 4)) (m'.readWord a) = joinHalves hi lo := by
  intro m'
  have hwf : (m.writeBytes a (leBytes 4 lo)).wf = true := Memory.wf_writeBytes h (by rw [leBytes_length]; omega)
  rw [Memory.readWord_writeBytes hi hwf (by omega), Memory.readWord_writeBytes_outside (.inl (le_refl _)),
    Memory.readWord_writeBytes lo h (by omega)]

section
variable {s : State} {t : Time}

/-- T1 samples the reported time while playing (R104). -/
theorem exec_tick_playing (hf : s.fatal = none) (hstart : s.started = true) (hplay : s.playing = true)
    (htick : s.tick = .idle) : exec .tick s = .next { s with tick := .wLo (s.reportedTime s.clk) } := by
  simp [exec, execTick, State.act_of_fatal_none hf, State.mayBeginTick, hstart, hplay, htick]

/-- T2 writes the low half of the sampled time (R105). -/
theorem exec_tWlo_valid (hf : s.fatal = none) (htick : s.tick = .wLo t)
    (hv : s.cfg.firstInvalid (s.cfg.addr offTimeLo) wordBytes = none) :
    exec .tWlo s = .next
      { s with mem := s.mem.writeBytes (s.cfg.addr offTimeLo) (leBytes wordBytes (lowHalf t)), tick := .wHi t } := by
  simp [exec, execTWlo, State.act_of_fatal_none hf, htick, State.writeWord, hv]

/-- T3 writes the high half of the sampled time (R106). -/
theorem exec_tWhi_valid (hf : s.fatal = none) (htick : s.tick = .wHi t)
    (hv : s.cfg.firstInvalid (s.cfg.addr offTimeHi) wordBytes = none) :
    exec .tWhi s = .next
      { s with mem := s.mem.writeBytes (s.cfg.addr offTimeHi) (leBytes wordBytes (highHalf t)), tick := .eval t } := by
  simp [exec, execTWhi, State.act_of_fatal_none hf, htick, State.writeWord, hv]

end

/-- Settles O25: T1 samples the reported time, and T2 and T3 store its halves, which read back and join to it. -/
theorem publishedTimeIsReportedTime : Obligations.PublishedTimeIsReportedTime := by
  intro s hf hstart hplay htick hm hw
  have hlo : s.cfg.firstInvalid (s.cfg.addr offTimeLo) wordBytes = none :=
    hw.firstInvalid_eq_none (by decide) (by decide)
  have hhi : s.cfg.firstInvalid (s.cfg.addr offTimeHi) wordBytes = none :=
    hw.firstInvalid_eq_none (by decide) (by decide)
  refine ⟨_, runOps_cons.2 ⟨_, exec_tick_playing hf hstart hplay htick, runOps_cons.2 ⟨_, exec_tWlo_valid hf rfl hlo,
    runOps_cons.2 ⟨_, exec_tWhi_valid hf rfl hhi, rfl⟩⟩⟩, ?_, rfl⟩
  have ha : s.cfg.addr offTimeLo + 8 ≤ addrSpace :=
    Config.firstInvalid_none_lt (hw.firstInvalid_eq_none (by decide) (by decide)) (by decide)
  exact (Memory.joinHalves_readWord _ _ hm ha).trans (joinHalves_highHalf_lowHalf _)

end Sys2Proof.Machine
end

section
/-! SUPPORT. The masked deadline sequence (R81, R135): while `tie` is off no step delivers an event or clears the latch, and
the two half stores set the whole compare value. -/

namespace Sys2Proof.Machine

/-- No interrupt is raised while the timer-interrupt enable is off (R108). -/
theorem evaluate_tie_off (t c : Time) (armed gie : Bool) : evaluate t c armed false gie = false := by
  simp [evaluate]

/-- What holds between the masked sequence's steps: the Watcher exists, `tie` is off, and the compare value, the latch, the
events delivered and `gie` are known. -/
structure State.Masked (s : State) (c : Time) (armed : Bool) (delivered : List Nat) (gie : Bool) : Prop where
  watcherOn : s.watcherOn = true
  tie : s.tie = false
  cmpValue : s.cmpValue = c
  armed : s.armed = armed
  delivered : s.delivered = delivered
  gie : s.gie = gie

section
variable {s t : State} {c : Time} {armed g : Bool} {d : List Nat}

/-- A step other than a compare store and CSR_SET keeps all of it, an evaluation among them. -/
theorem Effect.masked {i : Instr} (he : Effect s i t) (hstore : isCompareStore i = false) (hcsr : ∀ x y, i ≠ .csrSet x y)
    (h : s.Masked c armed d g) : t.Masked c armed d g := by
  obtain ⟨hw, htie, hc, ha, hd, hg⟩ := h
  cases he with
  | fired _ _ hfire => simp [htie, evaluate_tie_off] at hfire
  | watchedLo _ _ hi | watchedHi _ _ hi => simp [hi] at hstore
  | csrSet x y => exact absurd rfl (hcsr x y)
  | created => exact ⟨rfl, htie, hc, ha, hd, hg⟩
  | _ => constructor <;> simpa

/-- So does a run of such steps. -/
theorem runOps_masked {ops : List Instr} (hops : ∀ i ∈ ops, isCompareStore i = false ∧ ∀ x y, i ≠ .csrSet x y)
    (h : runOps ops s = .next t) (hm : s.Masked c armed d g) : t.Masked c armed d g := by
  induction ops generalizing s with
  | nil => cases h; exact hm
  | cons i is ih =>
    obtain ⟨u, hu, hrun⟩ := runOps_cons.1 h
    obtain ⟨⟨hstore, hcsr⟩, his⟩ := List.forall_mem_cons.1 hops
    exact ih his hrun ((exec_effect hu).2.masked hstore hcsr hm)

/-- CSR_SET with `tie` off begins the masked stretch (R81). -/
theorem exec_csrSet_masked (h : exec (.csrSet false s.gie) s = .next t) (hw : s.watcherOn = true) :
    t.Masked s.cmpValue s.armed s.delivered s.gie := by
  rw [exec_csrSet _ _ (exec_effect h).1] at h
  cases h
  exact ⟨hw, rfl, rfl, rfl, rfl, rfl⟩

/-- The high half's store sets the high half and the latch (R96). -/
theorem exec_swTimecmpHi_masked {w : Word} (h : exec (.swTimecmpHi w) s = .next t) (hm : s.Masked c armed d g) :
    t.Masked (setHighHalf c w) true d g := by
  obtain ⟨hw, htie, rfl, -, hd, hg⟩ := hm
  rw [exec_swTimecmpHi_watched w (exec_effect h).1 hw] at h
  cases h
  exact ⟨by simpa, by simpa, rfl, rfl, by simpa, by simpa⟩

/-- The low half's store sets the low half and the latch (R95). -/
theorem exec_swTimecmpLo_masked {w : Word} (h : exec (.swTimecmpLo w) s = .next t) (hm : s.Masked c armed d g) :
    t.Masked (setLowHalf c w) true d g := by
  obtain ⟨hw, htie, rfl, -, hd, hg⟩ := hm
  rw [exec_swTimecmpLo_watched w (exec_effect h).1 hw] at h
  cases h
  exact ⟨by simpa, by simpa, rfl, rfl, by simpa, by simpa⟩

/-- The high half and then the low half of a value give the value, whatever was there (R77, R78). -/
theorem setLowHalf_setHighHalf (c v : Time) : setLowHalf (setHighHalf c (highHalf v)) (lowHalf v) = v := by
  rw [setLowHalf_eq, setHighHalf_eq, highHalf_joinHalves, joinHalves_highHalf_lowHalf]

end

/-- The masked sequence with other steps between its four (R135). -/
def maskedOps (v : Time) (g : Bool) (a b c : List Instr) : List Instr :=
  [.csrSet false g] ++ a ++ [.swTimecmpHi (highHalf v)] ++ b ++ [.swTimecmpLo (lowHalf v)] ++ c ++ [.csrSet true g]

/-- A run of one operation is that operation. -/
theorem runOps_single {i : Instr} {s t : State} : runOps [i] s = .next t ↔ exec i s = .next t := by
  rw [runOps_cons]
  simp [runOps]

/-- The masked sequence sets the deadline and the latch, delivers nothing and gives the enables back (R135). -/
theorem runOps_maskedOps {s t : State} {v : Time} {a b c : List Instr} (hw : s.watcherOn = true)
    (hops : ∀ i ∈ a ++ b ++ c, isCompareStore i = false ∧ ∀ x y, i ≠ .csrSet x y)
    (h : runOps (maskedOps v s.gie a b c) s = .next t) :
    t.cmpValue = v ∧ t.armed = true ∧ t.delivered = s.delivered ∧ t.tie = true ∧ t.gie = s.gie := by
  simp only [maskedOps, runOps_append, runOps_single] at h
  obtain ⟨s₆, ⟨s₅, ⟨s₄, ⟨s₃, ⟨s₂, ⟨s₁, hoff, ha⟩, hhi⟩, hb⟩, hlo⟩, hc⟩, hon⟩ := h
  simp only [List.forall_mem_append] at hops
  obtain ⟨⟨hopsA, hopsB⟩, hopsC⟩ := hops
  have h₂ := exec_swTimecmpHi_masked hhi (runOps_masked hopsA ha (exec_csrSet_masked hoff hw))
  have h₆ := runOps_masked hopsC hc (exec_swTimecmpLo_masked hlo (runOps_masked hopsB hb h₂))
  obtain ⟨-, -, hcmp, harmed, hdel, -⟩ := h₆
  rw [exec_csrSet _ _ (exec_effect hon).1] at hon
  cases hon
  exact ⟨hcmp.trans (setLowHalf_setHighHalf _ v), harmed, hdel, rfl, rfl⟩

/-! ### Runs that complete -/

/-- A run completes where each of its operations keeps a predicate under which there is no fatal error (R114). -/
theorem runOps_completes {P : State → Prop} (hfatal : ∀ s, P s → s.fatal = none) {ops : List Instr}
    (hkeep : ∀ i ∈ ops, ∀ s t, P s → Effect s i t → P t) {s : State} (hs : P s) : ∃ t, runOps ops s = .next t := by
  induction ops generalizing s with
  | nil => exact ⟨s, rfl⟩
  | cons i is ih =>
    obtain ⟨hi, his⟩ := List.forall_mem_cons.1 hkeep
    obtain ⟨u, hu⟩ := exec_completes i (hfatal s hs)
    obtain ⟨t, ht⟩ := ih his (hi s u hs (exec_effect hu).2)
    exact ⟨t, runOps_cons.2 ⟨u, hu, ht⟩⟩

/-- Where the window is valid no step raises a fatal error (R115). -/
theorem Effect.fatal_eq_of_windowValid {s t : State} {i : Instr} (he : Effect s i t) (hw : s.WindowValid) :
    t.fatal = s.fatal := by
  cases he with
  | startFatal _ _ _ hv =>
    rw [hw.firstInvalid_eq_none (by decide) (by decide)] at hv
    cases hv
  | zeroFatal _ _ _ hi hv | tickFatal _ _ _ hi hv =>
    rcases hi with ⟨-, rfl⟩ | ⟨-, rfl⟩ <;> rw [hw.firstInvalid_eq_none (by decide) (by decide)] at hv <;> cases hv
  | _ => simp

/-- A software store or an enable change raises none, whatever the window (R94, R15). -/
theorem Effect.fatal_eq_of_store_or_csrSet {s t : State} {i : Instr} (he : Effect s i t)
    (hi : isStore i = true ∨ ∃ x y, i = .csrSet x y) : t.fatal = s.fatal := by
  cases he with
  | startFatal => simp [isStore] at hi
  | zeroFatal _ _ _ h | tickFatal _ _ _ h =>
    rcases h with ⟨rfl, -⟩ | ⟨rfl, -⟩ <;> simp [isStore] at hi
  | _ => simp

/-- Where the window is valid every run completes (R115). -/
theorem runOps_completes_of_windowValid {s : State} (ops : List Instr) (hf : s.fatal = none) (hw : s.WindowValid) :
    ∃ t, runOps ops s = .next t := by
  refine runOps_completes (P := fun s => s.fatal = none ∧ s.WindowValid) (fun _ h => h.1) (fun i _ s t h he => ?_) ⟨hf, hw⟩
  obtain ⟨hf, hw⟩ := h
  exact ⟨(he.fatal_eq_of_windowValid hw).trans hf, by unfold State.WindowValid; rwa [he.cfg_eq]⟩

/-- Settles O43: between the masking and the unmasking every step keeps what the two stores leave, and the four operations
themselves raise no fatal error. -/
theorem maskedSetcmpSetsDeadline : Obligations.MaskedSetcmpSetsDeadline := by
  intro s v a b c hf hw hops
  refine ⟨fun t h => runOps_maskedOps hw hops h, runOps_completes_of_windowValid _ hf, ?_⟩
  obtain ⟨t, ht⟩ : ∃ t, runOps (maskedOps v s.gie [] [] []) s = .next t := by
    refine runOps_completes (P := fun s => s.fatal = none) (fun _ h => h) (fun i hi s t hf he => ?_) hf
    refine (he.fatal_eq_of_store_or_csrSet ?_).trans hf
    simp only [maskedOps, List.append_nil, List.cons_append, List.nil_append] at hi
    fin_cases hi <;> simp [isStore]
  exact ⟨t, ht, runOps_maskedOps hw (by simp) ht⟩

end Sys2Proof.Machine
end

section
/-! SUPPORT. The lifecycle commands (R84 to R89): what each one accepted does, case by case, and that a step which is not
enabled waits (R13, R83, log 1). -/

namespace Sys2Proof

section
variable {c : Config} {lo n : Nat}

/-- A range of the window whose bytes are MEM_VALID, offset by offset, holds no invalid byte (R52). -/
theorem Config.firstInvalid_addr_eq_none (h : ∀ k, lo ≤ k → k < lo + n → c.memValid (c.addr k) = true) :
    c.firstInvalid (c.addr lo) n = none := by
  rw [Config.firstInvalid_none]
  intro b hlo hhi
  simp only [Config.addr] at h hlo hhi
  obtain ⟨k, rfl⟩ := Nat.exists_eq_add_of_le (show c.base.toNat ≤ b by omega)
  exact h k (by omega) (by omega)

/-- The first invalid byte of a range of the window, by its offset (R52, R115). -/
theorem Config.firstInvalid_addr_eq_some {k : Nat} (hlo : lo ≤ k) (hhi : k < lo + n) (hk : c.memValid (c.addr k) = false)
    (h : ∀ m, lo ≤ m → m < k → c.memValid (c.addr m) = true) : c.firstInvalid (c.addr lo) n = some (c.addr k) := by
  simp only [Config.addr] at *
  refine Config.firstInvalid_eq_some (by omega) (by omega) hk fun x hx₁ hx₂ => ?_
  obtain ⟨m, rfl⟩ := Nat.exists_eq_add_of_le (show c.base.toNat ≤ x by omega)
  exact h m (by omega) (by omega)

end

end Sys2Proof

namespace Sys2Proof.Machine

section
variable {s : State}

/-- START while started changes nothing (R84). -/
theorem exec_start_of_started (hf : s.fatal = none) (hs : s.started = true) : exec .start s = .next s := by
  simp [exec, execStart, State.act_of_fatal_none hf, State.startCommand, hs]

/-- START while stopped leaves the block started with a Watcher, which it creates where there is none (R84). -/
theorem exec_start_of_stopped (hf : s.fatal = none) (hh : s.host = .ready) (hs : s.started = false)
    (hv : s.watcherOn = true ∨ s.cfg.firstInvalid (s.cfg.addr offCmpLo) cmpRangeBytes = none) :
    exec .start s = .next { s with watcherOn := true, started := true } := by
  rw [exec, execStart, State.act_of_fatal_none hf, State.acceptsCommand, State.startCommand]
  cases hw : s.watcherOn with
  | true => simp [hh, hs]
  | false => simp [hh, hs, hv.resolve_left (by simp [hw])]

/-- The first START with an invalid byte in the compare range raises the fatal error (R84, R115). -/
theorem exec_start_fatal {a : Nat} (hf : s.fatal = none) (hh : s.host = .ready) (hs : s.started = false)
    (hw : s.watcherOn = false) (hv : s.cfg.firstInvalid (s.cfg.addr offCmpLo) cmpRangeBytes = some a) :
    exec .start s = .next (s.raiseFatal a) := by
  simp [exec, execStart, State.act_of_fatal_none hf, State.acceptsCommand, State.startCommand, hh, hs, hw, hv]

/-- PLAY while started and paused anchors the sync point at the clock (R85). -/
theorem exec_play_of_paused (hf : s.fatal = none) (hh : s.host = .ready) (hs : s.started = true)
    (hp : s.playing = false) : exec .play s = .next { s with sync := some s.clk, playing := true } := by
  simp [exec, execPlay, State.act_of_fatal_none hf, State.acceptsCommand, hh, hs, hp]

/-- PLAY while stopped or playing changes nothing (R85). -/
theorem exec_play_of_stopped_or_playing (hf : s.fatal = none) (h : s.started = false ∨ s.playing = true) :
    exec .play s = .next s := by
  rcases h with hs | hp
  · simp [exec, execPlay, State.act_of_fatal_none hf, hs]
  · simp [exec, execPlay, State.act_of_fatal_none hf, hp]

/-- PAUSE while playing folds the running interval into the accumulator (R86). -/
theorem exec_pause_of_playing (hf : s.fatal = none) (hh : s.host = .ready) (hp : s.playing = true) :
    exec .pause s = .next { s with elapsed := s.elapsed + (s.clk - s.syncPoint), playing := false } := by
  simp [exec, execPause, State.act_of_fatal_none hf, State.acceptsCommand, hh, hp]

/-- PAUSE while not playing changes nothing (R86). -/
theorem exec_pause_of_paused (hf : s.fatal = none) (hp : s.playing = false) : exec .pause s = .next s := by
  simp [exec, execPause, State.act_of_fatal_none hf, hp]

/-- STOP zeroes the time, stops the block and begins the zero writes (R88). -/
theorem exec_stop_of_ready (hf : s.fatal = none) (hh : s.host = .ready) :
    exec .stop s = .next { s.zeroTime with playing := false, started := false } := by
  simp [exec, execStop, State.act_of_fatal_none hf, State.acceptsCommand, hh]

/-- RESET zeroes the time and begins the zero writes (R87). -/
theorem exec_reset_of_ready (hf : s.fatal = none) (hh : s.host = .ready) : exec .reset s = .next s.zeroTime := by
  simp [exec, execReset, State.act_of_fatal_none hf, State.acceptsCommand, hh]

/-- Without a fatal error a step is enabled exactly where its agent's phase allows it (R13, R114). -/
theorem State.enabled_of_fatal_none (hf : s.fatal = none) (i : Instr) : s.enabled i = s.ready i := by
  simp [State.enabled, hf]

/-- A software access is ready in every state (R71). -/
theorem State.ready_of_access {i : Instr} (h : isLoad i = true ∨ isStore i = true) : s.ready i = true := by
  cases i with
  | swTimecmpLo | swTimecmpHi | swTimeLo | swTimeHi | sb | sh | sw => rfl
  | lwTimeLo | lwTimeHi | lwTimecmpLo | lwTimecmpHi | lb | lh | lw => rfl
  | _ => simp [isLoad, isStore] at h

/-- A step whose agent's phase does not allow it waits (R13, R71, R83, log 1). -/
theorem exec_of_not_ready {i : Instr} (hf : s.fatal = none) (h : s.ready i = false) : exec i s = .next s := by
  cases i with
  | start | stop | reset | tick | clkSet => exact State.act_eq_next.2 ⟨hf, if_neg (Bool.eq_false_iff.1 h)⟩
  | hZlo | hZhi => exact State.act_eq_next.2 ⟨hf, if_neg (of_decide_eq_false h)⟩
  | play | pause =>
    have hc : s.acceptsCommand = false := h
    simp [exec, execPlay, execPause, State.act_of_fatal_none hf, hc]
  | tWlo | tWhi | tEval =>
    refine State.act_eq_next.2 ⟨hf, ?_⟩
    cases ht : s.tick <;> simp [State.ready, ht] at h ⊢
  | _ => cases h

end

/-- Settles O8: the phase of each agent's step, and a step whose phase is not there waits. -/
theorem stepsWaitUnlessEnabled : Obligations.StepsWaitUnlessEnabled := by
  intro s hf
  simp only [State.enabled_of_fatal_none hf]
  refine ⟨fun i hi => ?_, decide_eq_true_iff, decide_eq_true_iff, ?_, ?_, ?_, ?_, fun _ => decide_eq_true_iff,
    fun _ _ => rfl, fun _ => State.ready_of_access, fun _ => exec_of_not_ready hf⟩
  · fin_cases hi <;> exact decide_eq_true_iff
  · simp [State.ready, State.mayBeginTick]
  all_goals cases ht : s.tick <;> simp [State.ready, ht]

/-- Settles O12: START's cases, the valid range and its first invalid byte by their offsets. -/
theorem startCommand : Obligations.StartCommand := by
  intro s hf hh
  refine ⟨exec_start_of_started hf, fun hs hw => ?_, fun hs hw hv => ?_, fun k hs hw hlo hhi hv hk => ?_⟩
  · rw [exec_start_of_stopped hf hh hs (.inl hw), ← hw]
  · exact exec_start_of_stopped hf hh hs (.inr
      (Config.firstInvalid_addr_eq_none (lo := 0x20) (n := 8) fun k hlo hhi => hv k hlo (by omega)))
  · exact exec_start_fatal hf hh hs hw (Config.firstInvalid_addr_eq_some (lo := 0x20) (n := 8) hlo (by omega) hk hv)

/-- Settles O13: PLAY's two cases. -/
theorem playCommand : Obligations.PlayCommand :=
  fun _ hf hh => ⟨exec_play_of_paused hf hh, exec_play_of_stopped_or_playing hf⟩

/-- Settles O14: PAUSE's two cases; the sync point that was never set is the free value of log 8. -/
theorem pauseCommand : Obligations.PauseCommand := by
  intro s hf hh
  refine ⟨fun p hp hs => ?_, fun hp _ => ⟨_, exec_pause_of_playing hf hh hp⟩, exec_pause_of_paused hf⟩
  rw [exec_pause_of_playing hf hh hp, State.syncPoint, hs, Option.getD_some]

/-- Settles O18: each command's next state, from each of the three lifecycle states (R25). -/
theorem lifecycleTransitionTable : Obligations.LifecycleTransitionTable := by
  intro s hf hh hlegal hv
  have hreset := exec_reset_of_ready hf hh
  have hstop := exec_stop_of_ready hf hh
  cases hs : s.started with
  | false =>
    have hp : s.playing = false := Bool.eq_false_iff.2 (mt hlegal (by simp [hs]))
    refine ⟨_, _, _, _, _, exec_start_of_stopped hf hh hs hv, exec_play_of_stopped_or_playing hf (.inl hs),
      exec_pause_of_paused hf hp, hreset, hstop, ?_⟩
    simp [State.lifecycle, hs, hp]
  | true =>
    cases hp : s.playing with
    | false =>
      refine ⟨_, _, _, _, _, exec_start_of_started hf hs, exec_play_of_paused hf hh hs hp, exec_pause_of_paused hf hp,
        hreset, hstop, ?_⟩
      simp [State.lifecycle, hs, hp]
    | true =>
      refine ⟨_, _, _, _, _, exec_start_of_started hf hs, exec_play_of_stopped_or_playing hf (.inr hp),
        exec_pause_of_playing hf hh hp, hreset, hstop, ?_⟩
      simp [State.lifecycle, hs, hp]

end Sys2Proof.Machine
end

section
/-! SUPPORT. The zero writes of RESET and STOP (R90, R91): the two steps, the pair of them, and what the pair leaves in the
memory. -/

namespace Sys2Proof.Machine

/-- The memory with zero in TIME_LO and TIME_HI: what the two zero writes leave (`runOps_zeroWrites`). -/
def Memory.zeroTimeWords (m : Memory) (c : Config) : Memory :=
  (m.writeBytes (c.addr offTimeLo) [0, 0, 0, 0]).writeBytes (c.addr offTimeHi) [0, 0, 0, 0]

section
variable {s t : State}

/-- The zero write of TIME_LO (R90). -/
theorem exec_hZlo_valid (hf : s.fatal = none) (hh : s.host = .zeroLo)
    (hv : s.cfg.firstInvalid (s.cfg.addr offTimeLo) wordBytes = none) :
    exec .hZlo s = .next { s with mem := s.mem.writeBytes (s.cfg.addr offTimeLo) [0, 0, 0, 0], host := .zeroHi } := by
  simp only [exec, execHZlo, State.act_of_fatal_none hf, hh, if_true, State.writeWord, hv]
  rfl

/-- The zero write of TIME_LO where a byte of the word is invalid (R90, R115). -/
theorem exec_hZlo_fatal {b : Nat} (hf : s.fatal = none) (hh : s.host = .zeroLo)
    (hv : s.cfg.firstInvalid (s.cfg.addr offTimeLo) wordBytes = some b) : exec .hZlo s = .next (s.raiseFatal b) := by
  simp only [exec, execHZlo, State.act_of_fatal_none hf, hh, if_true, State.writeWord, hv]

/-- The zero write of TIME_HI (R91). -/
theorem exec_hZhi_valid (hf : s.fatal = none) (hh : s.host = .zeroHi)
    (hv : s.cfg.firstInvalid (s.cfg.addr offTimeHi) wordBytes = none) :
    exec .hZhi s = .next { s with mem := s.mem.writeBytes (s.cfg.addr offTimeHi) [0, 0, 0, 0], host := .ready } := by
  simp only [exec, execHZhi, State.act_of_fatal_none hf, hh, if_true, State.writeWord, hv]
  rfl

/-- The zero write of TIME_HI where a byte of the word is invalid (R91, R115). -/
theorem exec_hZhi_fatal {b : Nat} (hf : s.fatal = none) (hh : s.host = .zeroHi)
    (hv : s.cfg.firstInvalid (s.cfg.addr offTimeHi) wordBytes = some b) : exec .hZhi s = .next (s.raiseFatal b) := by
  simp only [exec, execHZhi, State.act_of_fatal_none hf, hh, if_true, State.writeWord, hv]

/-- The two zero writes with nothing between, where both words are valid (R90, R91). -/
theorem runOps_zeroWrites (hf : s.fatal = none) (hh : s.host = .zeroLo)
    (hlo : s.cfg.firstInvalid (s.cfg.addr offTimeLo) wordBytes = none)
    (hhi : s.cfg.firstInvalid (s.cfg.addr offTimeHi) wordBytes = none) :
    runOps [.hZlo, .hZhi] s = .next { s with mem := s.mem.zeroTimeWords s.cfg, host := .ready } :=
  runOps_cons.2 ⟨_, exec_hZlo_valid hf hh hlo, runOps_single.2 (exec_hZhi_valid hf rfl hhi)⟩

/-- Two zero writes that raise no fatal error found both words valid (R115). -/
theorem firstInvalid_eq_none_of_runOps_zeroWrites (h : runOps [.hZlo, .hZhi] s = .next t) (hh : s.host = .zeroLo)
    (hf : t.fatal = none) : s.cfg.firstInvalid (s.cfg.addr offTimeLo) wordBytes = none ∧
      s.cfg.firstInvalid (s.cfg.addr offTimeHi) wordBytes = none := by
  obtain ⟨u, hu, hrun⟩ := runOps_cons.1 h
  rw [runOps_single] at hrun
  have hs : s.fatal = none := (exec_effect hu).1
  cases hlo : s.cfg.firstInvalid (s.cfg.addr offTimeLo) wordBytes with
  | some b =>
    rw [exec_hZlo_fatal hs hh hlo] at hu
    cases hu
    cases (exec_effect hrun).1
  | none =>
    rw [exec_hZlo_valid hs hh hlo] at hu
    cases hu
    cases hhi : s.cfg.firstInvalid (s.cfg.addr offTimeHi) wordBytes with
    | some b =>
      cases hrun.symm.trans (exec_hZhi_fatal hs rfl hhi)
      cases hf
    | none => exact ⟨rfl, rfl⟩

/-- A whole RESET where both TIME words are valid (R87, R90, R91). -/
theorem runOps_reset (hf : s.fatal = none) (hh : s.host = .ready)
    (hlo : s.cfg.firstInvalid (s.cfg.addr offTimeLo) wordBytes = none)
    (hhi : s.cfg.firstInvalid (s.cfg.addr offTimeHi) wordBytes = none) :
    runOps [.reset, .hZlo, .hZhi] s = .next { s with elapsed := 0, sync := some s.clk, mem := s.mem.zeroTimeWords s.cfg } := by
  refine runOps_cons.2 ⟨_, exec_reset_of_ready hf hh, ?_⟩
  rw [runOps_zeroWrites (s := s.zeroTime) hf rfl hlo hhi, ← hh]
  rfl

/-- A whole STOP where both TIME words are valid (R88, R90, R91). -/
theorem runOps_stop (hf : s.fatal = none) (hh : s.host = .ready)
    (hlo : s.cfg.firstInvalid (s.cfg.addr offTimeLo) wordBytes = none)
    (hhi : s.cfg.firstInvalid (s.cfg.addr offTimeHi) wordBytes = none) :
    runOps [.stop, .hZlo, .hZhi] s = .next
      { s with playing := false, started := false, elapsed := 0, sync := some s.clk, mem := s.mem.zeroTimeWords s.cfg } := by
  refine runOps_cons.2 ⟨_, exec_stop_of_ready hf hh, ?_⟩
  rw [runOps_zeroWrites (s := { s.zeroTime with playing := false, started := false }) hf rfl hlo hhi, ← hh]
  rfl

end

/-- Settles O15: STOP's own step, the whole STOP, and the first zero write of an invalid word. -/
theorem stopCommand : Obligations.StopCommand := by
  intro s hf hh
  have hstop := exec_stop_of_ready hf hh
  exact ⟨hstop, runOps_stop hf hh,
    fun b hb => ⟨_, runOps_cons.2 ⟨_, hstop, runOps_single.2 (exec_hZlo_fatal hf rfl hb)⟩, rfl, rfl⟩⟩

/-- Settles O16: RESET's own step, the whole RESET, and the first zero write of an invalid word. -/
theorem resetCommand : Obligations.ResetCommand := by
  intro s hf hh
  have hreset := exec_reset_of_ready hf hh
  exact ⟨hreset, runOps_reset hf hh,
    fun b hb => ⟨_, runOps_cons.2 ⟨_, hreset, runOps_single.2 (exec_hZlo_fatal hf rfl hb)⟩, rfl, rfl⟩⟩

/-- Settles O17: the two steps, each where its word is valid and where it is not, and when they are enabled. -/
theorem zeroWriteSteps : Obligations.ZeroWriteSteps := by
  intro s hf
  refine ⟨fun hh hv => exec_hZlo_valid hf hh ?_, fun hh hv => exec_hZhi_valid hf hh ?_, fun hh _ => exec_hZlo_fatal hf hh,
    fun hh _ => exec_hZhi_fatal hf hh, ?_, ?_⟩
  · exact Config.firstInvalid_addr_eq_none (lo := 0x18) (n := 4) fun k hlo hhi => hv k hlo (by omega)
  · exact Config.firstInvalid_addr_eq_none (lo := 0x1C) (n := 4) fun k hlo hhi => hv k hlo (by omega)
  all_goals
    rw [State.enabled_of_fatal_none hf]
    exact decide_eq_true_iff

end Sys2Proof.Machine
end

section
/-! SUPPORT. Zero in the TIME words (R90, R91): it reads back as zero, and storing it again changes nothing; so a command
given twice does what it does once (R92 items 1 and 4). -/

namespace Sys2Proof.Machine

/-- Two stores one behind the other are one store of both rows of bytes. -/
theorem Memory.writeBytes_append (m : Memory) (a : Nat) (bs cs : List Byte) :
    m.writeBytes a (bs ++ cs) = (m.writeBytes a bs).writeBytes (a + bs.length) cs := by
  induction bs generalizing m a with
  | nil => rfl
  | cons b bs ih =>
    rw [List.cons_append, Memory.writeBytes, ih, List.length_cons, Nat.add_right_comm]
    rfl

section
variable {m : Memory} {a n : Nat}

/-- A byte just stored reads back. -/
theorem Memory.read_writeBytes_inside {bs : List Byte} {j : Nat} (h : m.wf = true) (ha : a + bs.length ≤ addrSpace)
    (hj : j < bs.length) : (m.writeBytes a bs).read (a + j) = bs.getD j 0#8 := by
  have hread := Memory.getD_readBytes (m.writeBytes a bs) a bs.length j
  rwa [Memory.readBytes_writeBytes h ha, if_pos hj, eq_comm] at hread

/-- Storing zeros where a canonical memory already reads zero changes nothing. -/
theorem Memory.writeBytes_zeros_eq (h : m.wf = true) (hr : ∀ j < n, m.read (a + j) = 0#8) :
    m.writeBytes a (List.replicate n 0#8) = m := by
  induction n generalizing a with
  | zero => rfl
  | succ n ih =>
    have hhead : m.write a 0#8 = m := Memory.write_unlisted_idem h (hr 0 (by omega))
    rw [List.replicate_succ, Memory.writeBytes, hhead]
    refine ih fun j hj => ?_
    rw [Nat.add_right_comm]
    exact hr (j + 1) (by omega)

/-- Storing zeros twice is storing them once. -/
theorem Memory.writeBytes_zeros_idem (h : m.wf = true) (ha : a + n ≤ addrSpace) :
    (m.writeBytes a (List.replicate n 0#8)).writeBytes a (List.replicate n 0#8) =
      m.writeBytes a (List.replicate n 0#8) := by
  refine Memory.writeBytes_zeros_eq (Memory.wf_writeBytes h (by simpa using ha)) fun j hj => ?_
  rw [Memory.read_writeBytes_inside h (by simpa using ha) (by simpa using hj)]
  simp [hj]

end

section
variable {m : Memory} {c : Config}

/-- The two zero words are eight zero bytes in a row (R48). -/
theorem Memory.zeroTimeWords_eq : m.zeroTimeWords c = m.writeBytes (c.addr offTimeLo) (List.replicate 8 0#8) :=
  (m.writeBytes_append (c.addr offTimeLo) [0, 0, 0, 0] [0, 0, 0, 0]).symm

/-- The zero writes of a memory whose TIME words are zero already change nothing. -/
theorem Memory.zeroTimeWords_idem (h : m.wf = true) (ha : c.addr offTimeLo + 8 ≤ addrSpace) :
    (m.zeroTimeWords c).zeroTimeWords c = m.zeroTimeWords c := by
  simp only [Memory.zeroTimeWords_eq]
  exact Memory.writeBytes_zeros_idem h ha

/-- TIME_HI reads zero after the zero writes (R91). -/
theorem Memory.readWord_zeroTimeWords_hi (h : m.wf = true) (ha : c.addr offTimeLo + 8 ≤ addrSpace) :
    (m.zeroTimeWords c).readWord (c.addr offTimeHi) = 0 :=
  Memory.readWord_writeBytes 0 (Memory.wf_writeBytes h (show _ + 4 ≤ _ by omega)) ha

/-- TIME_LO reads zero after the zero writes, as the second one lies behind it (R90, R91). -/
theorem Memory.readWord_zeroTimeWords_lo (h : m.wf = true) (ha : c.addr offTimeLo + 8 ≤ addrSpace) :
    (m.zeroTimeWords c).readWord (c.addr offTimeLo) = 0 :=
  (Memory.readWord_writeBytes_outside (.inl (le_refl _))).trans
    (Memory.readWord_writeBytes 0 h (by omega))

end

section
variable {s : State}

/-- A word loaded inside a valid window is the word in the memory (R97). -/
theorem State.WindowValid.load_word (h : s.WindowValid) {off : Nat} (hlo : 0x18 ≤ off) (hhi : off ≤ 0x24) :
    s.load off wordBytes = { s with loaded := s.loaded ++ [s.mem.readWord (s.cfg.addr off)] } := by
  simpa using h.load_eq (k := 0) (n := 4) hlo hhi (by omega)

/-- A load of TIME_LO in a valid window (R97). -/
theorem exec_lwTimeLo_valid (hf : s.fatal = none) (hw : s.WindowValid) :
    exec .lwTimeLo s = .next { s with loaded := s.loaded ++ [s.mem.readWord (s.cfg.addr offTimeLo)] } := by
  rw [exec, execLwTimeLo, State.act_of_fatal_none hf, hw.load_word (by decide) (by decide)]

/-- A load of TIME_HI in a valid window (R97). -/
theorem exec_lwTimeHi_valid (hf : s.fatal = none) (hw : s.WindowValid) :
    exec .lwTimeHi s = .next { s with loaded := s.loaded ++ [s.mem.readWord (s.cfg.addr offTimeHi)] } := by
  rw [exec, execLwTimeHi, State.act_of_fatal_none hf, hw.load_word (by decide) (by decide)]

end

/-- Settles O50: the whole RESET leaves zero in both words, and the loads return them. -/
theorem resetThenTimeReadsZero : Obligations.ResetThenTimeReadsZero := by
  intro s hf hh hm hw
  have ha : s.cfg.addr offTimeLo + 8 ≤ addrSpace :=
    Config.firstInvalid_none_lt (hw.firstInvalid_eq_none (by decide) (by decide)) (by decide)
  have hrun := runOps_reset hf hh (hw.firstInvalid_eq_none (by decide) (by decide))
    (hw.firstInvalid_eq_none (by decide) (by decide))
  refine ⟨_, runOps_append (js := [.lwTimeLo, .lwTimeHi]).2 ⟨_, hrun, runOps_cons.2 ⟨_, exec_lwTimeLo_valid hf hw,
    runOps_single.2 (exec_lwTimeHi_valid hf hw)⟩⟩, ?_, hh⟩
  simp only [Memory.readWord_zeroTimeWords_lo hm ha, Memory.readWord_zeroTimeWords_hi hm ha, List.append_assoc,
    List.cons_append, List.nil_append]

/-! ### A command given twice (R92 item 1) -/

/-- START, PLAY or PAUSE leaves a state in which it does nothing, unless START has raised the fatal error. -/
theorem Effect.exec_again {s t : State} {i : Instr} (he : Effect s i t) (hi : i ∈ [Instr.start, .play, .pause])
    (h : exec i s = .next t) (hf : t.fatal = none) : exec i t = .next t := by
  have hbus : isStore i = false ∧ isLoad i = false ∧ isCompareStore i = false := by fin_cases hi <;> decide
  cases he with
  | same => exact h
  | started | created => exact exec_start_of_started hf rfl
  | startFatal => cases hf
  | play => exact exec_play_of_stopped_or_playing hf (.inr rfl)
  | pause => exact exec_pause_of_paused hf rfl
  | zeroFatal | tickFatal => cases hf
  | refused _ hs | stored _ _ _ _ hs | loaded _ _ _ hs | watchedLo _ _ hs | watchedHi _ _ hs => simp [hs] at hbus
  | _ => simp at hi

/-- A rise of the clock and a whole STOP, where both TIME words are valid (R14, R88, R90, R91). -/
theorem runOps_clkSet_stop {s : State} {c : Time} (hf : s.fatal = none) (hh : s.host = .ready)
    (hlo : s.cfg.firstInvalid (s.cfg.addr offTimeLo) wordBytes = none)
    (hhi : s.cfg.firstInvalid (s.cfg.addr offTimeHi) wordBytes = none) (hc : s.clk.toNat ≤ c.toNat) :
    runOps [.clkSet c, .stop, .hZlo, .hZhi] s = .next
      { s with playing := false, started := false, elapsed := 0, clk := c, sync := some c,
               mem := s.mem.zeroTimeWords s.cfg } :=
  runOps_cons.2 ⟨_, exec_clkSet_of_le hf hc, runOps_stop (s := { s with clk := c }) hf hh hlo hhi⟩

/-- Settles O48: START, PLAY and PAUSE leave a state in which they do nothing; the second STOP zeroes what is zero. -/
theorem commandsIdempotent : Obligations.CommandsIdempotent := by
  refine ⟨fun s t i hi h hf => (exec_effect h).2.exec_again hi h hf, fun s t c hh hm h hf hc => ?_⟩
  obtain ⟨u, hu, hz⟩ := runOps_cons.1 h
  have hs : s.fatal = none := (exec_effect hu).1
  cases hu.symm.trans (exec_stop_of_ready hs hh)
  obtain ⟨hlo, hhi⟩ := firstInvalid_eq_none_of_runOps_zeroWrites hz rfl hf
  cases h.symm.trans (runOps_stop hs hh hlo hhi)
  have hidem := Memory.zeroTimeWords_idem (c := s.cfg) hm (Config.firstInvalid_none_lt (n := 4) hhi (by decide))
  rw [runOps_clkSet_stop, hidem]
  exacts [hs, hh, hlo, hhi, hc]

end Sys2Proof.Machine
end

section
/-! SUPPORT. The accumulator over a run (R92 item 3): what it holds is the sum of the played intervals that have ended. -/

namespace Sys2Proof.Machine

/-- The clock value at which the open interval began, where one is open: the sync point while playing, and none while paused.
It is what `playedTime` keeps as `begun`. -/
def State.intervalStart (s : State) : Option Time := if s.playing then some s.syncPoint else none

/-- The accumulator that a state and the operations yet to come lead to: what is held, and the played intervals that end. -/
def State.elapsedAfter (s : State) (ops : List Instr) : Time := s.elapsed + playedTime s.clk s.intervalStart ops

section
variable {s t : State} {i : Instr} {is : List Instr}

@[simp] theorem State.intervalStart_of_playing (hp : s.playing = true) : s.intervalStart = some s.syncPoint := by
  simp [State.intervalStart, hp]

@[simp] theorem State.intervalStart_of_paused (hp : s.playing = false) : s.intervalStart = none := by
  simp [State.intervalStart, hp]

/-- An operation other than PLAY, PAUSE and CLK_SET neither opens nor ends an interval and leaves the clock. -/
theorem playedTime_cons_of_ne {clk : Time} {begun : Option Time} (hplay : i ≠ .play) (hpause : i ≠ .pause)
    (hclk : ∀ c, i ≠ .clkSet c) : playedTime clk begun (i :: is) = playedTime clk begun is := by
  cases i with
  | play => exact absurd rfl hplay
  | pause => exact absurd rfl hpause
  | clkSet c => exact absurd rfl (hclk c)
  | _ => rfl

/-- Such an operation, when it is no RESET or STOP either, writes none of the fields that the sum is read from. -/
theorem Effect.elapsedAfter_of_ne (he : Effect s i t) (hplay : i ≠ .play) (hpause : i ≠ .pause)
    (hclk : ∀ c, i ≠ .clkSet c) (hreset : i ≠ .reset) (hstop : i ≠ .stop) : t.elapsedAfter is = s.elapsedAfter (i :: is) := by
  have hp : t.playing = s.playing := he.playing_eq_or.resolve_right (by simp [hplay, hpause, hstop])
  have hel : t.elapsed = s.elapsed := he.elapsed_eq_or.resolve_right (by simp [hpause, hreset, hstop])
  have hsync : t.sync = s.sync := he.sync_eq_or.resolve_right (by simp [hplay, hreset, hstop])
  have hc : t.clk = s.clk := he.clk_eq_or.resolve_right fun ⟨c, hi, _⟩ => hclk c hi
  simp only [State.elapsedAfter, State.intervalStart, State.syncPoint, playedTime_cons_of_ne hplay hpause hclk, hp, hel,
    hsync, hc]

/-- PLAY opens an interval at the clock where none is open (R85). -/
theorem elapsedAfter_of_exec_play (h : exec .play s = .next t) (hh : s.host = .ready) (hs : s.started = true) :
    t.elapsedAfter is = s.elapsedAfter (.play :: is) := by
  have hf := (exec_effect h).1
  cases hp : s.playing with
  | false =>
    cases h.symm.trans (exec_play_of_paused hf hh hs hp)
    simp [State.elapsedAfter, playedTime, hp, State.syncPoint]
  | true =>
    cases h.symm.trans (exec_play_of_stopped_or_playing hf (.inr hp))
    simp [State.elapsedAfter, playedTime, hp]

/-- PAUSE ends the open interval at the clock and adds it to the accumulator (R86). -/
theorem elapsedAfter_of_exec_pause (h : exec .pause s = .next t) (hh : s.host = .ready) :
    t.elapsedAfter is = s.elapsedAfter (.pause :: is) := by
  have hf := (exec_effect h).1
  cases hp : s.playing with
  | false =>
    cases h.symm.trans (exec_pause_of_paused hf hp)
    simp [State.elapsedAfter, playedTime, hp]
  | true =>
    cases h.symm.trans (exec_pause_of_playing hf hh hp)
    simp [State.elapsedAfter, playedTime, hp, BitVec.add_assoc]

/-- CLK_SET raises the clock or waits, and the open interval goes on (R14). -/
theorem elapsedAfter_of_exec_clkSet {c : Time} (h : exec (.clkSet c) s = .next t) :
    t.elapsedAfter is = s.elapsedAfter (.clkSet c :: is) := by
  have hf := (exec_effect h).1
  by_cases hc : s.clk.toNat ≤ c.toNat
  · cases h.symm.trans (exec_clkSet_of_le hf hc)
    simp [State.elapsedAfter, playedTime, hc, State.intervalStart, State.syncPoint]
  · cases h.symm.trans (exec_clkSet_of_lt hf (Nat.lt_of_not_le hc))
    simp [State.elapsedAfter, playedTime, hc]

/-- A step other than RESET and STOP leaves the block started and the Host ready for commands. -/
theorem Effect.started_ready (he : Effect s i t) (hreset : i ≠ .reset) (hstop : i ≠ .stop) (hs : s.started = true)
    (hh : s.host = .ready) : t.started = true ∧ t.host = .ready := by
  cases he with
  | reset => exact absurd rfl hreset
  | stop => exact absurd rfl hstop
  | zeroLo _ h | zeroHi _ h => simp [hh] at h
  | _ => simp [hs, hh]

/-- No step of a started block other than RESET and STOP changes what the run's accumulator will hold. -/
theorem elapsedAfter_of_exec (h : exec i s = .next t) (hreset : i ≠ .reset) (hstop : i ≠ .stop) (hs : s.started = true)
    (hh : s.host = .ready) : t.elapsedAfter is = s.elapsedAfter (i :: is) := by
  cases i with
  | play => exact elapsedAfter_of_exec_play h hh hs
  | pause => exact elapsedAfter_of_exec_pause h hh
  | clkSet c => exact elapsedAfter_of_exec_clkSet h
  | _ => exact (exec_effect h).2.elapsedAfter_of_ne nofun nofun nofun hreset hstop

/-- The accumulator at the end of a run without RESET and STOP. -/
theorem runOps_elapsed {ops : List Instr} (hreset : .reset ∉ ops) (hstop : .stop ∉ ops) (hs : s.started = true)
    (hh : s.host = .ready) (h : runOps ops s = .next t) : t.elapsed = s.elapsedAfter ops := by
  induction ops generalizing s with
  | nil =>
    cases h
    simp [State.elapsedAfter, playedTime]
  | cons i is ih =>
    obtain ⟨u, hu, hrun⟩ := runOps_cons.1 h
    have hri : i ≠ .reset := (List.ne_of_not_mem_cons hreset).symm
    have hsi : i ≠ .stop := (List.ne_of_not_mem_cons hstop).symm
    obtain ⟨hsu, hhu⟩ := (exec_effect hu).2.started_ready hri hsi hs hh
    rw [ih (List.not_mem_of_not_mem_cons hreset) (List.not_mem_of_not_mem_cons hstop) hsu hhu hrun,
      elapsedAfter_of_exec hu hri hsi hs hh]

end

/-! ### Runs of played intervals -/

/-- A state in which PLAY begins an interval: no fatal error, the Host ready, the block started and paused. -/
structure State.MayPlay (s : State) : Prop where
  fatal : s.fatal = none
  host : s.host = .ready
  started : s.started = true
  playing : s.playing = false

section
variable {s t : State}

/-- An operation that does nothing in a state does nothing there however often it is given. -/
theorem runOps_replicate {i : Instr} {n : Nat} (h : exec i s = .next s) : runOps (List.replicate n i) s = .next s := by
  induction n with
  | zero => rfl
  | succ n ih => exact runOps_cons.2 ⟨s, h, ih⟩

/-- PLAY and redundant PLAYs begin one interval, at the clock (R85). -/
theorem runOps_replicate_play {x : Nat} (h : s.MayPlay) :
    runOps (List.replicate (x + 1) .play) s = .next { s with sync := some s.clk, playing := true } :=
  runOps_cons.2 ⟨_, exec_play_of_paused h.fatal h.host h.started h.playing,
    runOps_replicate (exec_play_of_stopped_or_playing h.fatal (.inr rfl))⟩

/-- PAUSE and redundant PAUSEs end the interval once, at the clock (R86). -/
theorem runOps_replicate_pause {y : Nat} (hf : s.fatal = none) (hh : s.host = .ready) (hp : s.playing = true) :
    runOps (List.replicate (y + 1) .pause) s =
      .next { s with elapsed := s.elapsed + (s.clk - s.syncPoint), playing := false } :=
  runOps_cons.2 ⟨_, exec_pause_of_playing hf hh hp, runOps_replicate (exec_pause_of_paused hf rfl)⟩

/-- What a played interval from clock `p` to clock `q` makes of a state (`runOps_playedInterval`). -/
def State.afterInterval (s : State) (p q : Time) : State :=
  { s with clk := q, sync := some p, elapsed := s.elapsed + (q - p), playing := false }

/-- The next interval may begin where one has ended. -/
theorem State.MayPlay.afterInterval (h : s.MayPlay) (p q : Time) : (s.afterInterval p q).MayPlay :=
  ⟨h.fatal, h.host, h.started, rfl⟩

/-- A played interval adds its length to the accumulator (R85, R86). -/
theorem runOps_playedInterval {p q : Time} {x y : Nat} (h : s.MayPlay) (hp : s.clk.toNat ≤ p.toNat)
    (hq : p.toNat ≤ q.toNat) : runOps (playedInterval p q x y) s = .next (s.afterInterval p q) := by
  simp only [playedInterval, runOps_append, runOps_single]
  exact ⟨_, ⟨_, ⟨_, exec_clkSet_of_le h.fatal hp, runOps_replicate_play ⟨h.fatal, h.host, h.started, h.playing⟩⟩,
    exec_clkSet_of_le h.fatal hq⟩, runOps_replicate_pause h.fatal h.host rfl⟩

/-- A run of intervals with rising clock values adds their lengths to the accumulator. -/
theorem runOps_intervals {l : List (Time × Time × Nat × Nat)} (h : s.MayPlay) (hl : intervalsRise s.clk l) :
    ∃ t, runOps (l.flatMap fun e => playedInterval e.1 e.2.1 e.2.2.1 e.2.2.2) s = .next t ∧ t.playing = false ∧
      t.elapsed = s.elapsed + (l.map fun e => e.2.1 - e.1).sum := by
  induction l generalizing s with
  | nil => exact ⟨s, rfl, h.playing, by simp⟩
  | cons e l ih =>
    obtain ⟨p, q, x, y⟩ := e
    obtain ⟨hp, hq, hl⟩ := hl
    obtain ⟨t, hrun, hpaused, helapsed⟩ := ih (h.afterInterval p q) hl
    refine ⟨t, runOps_append.2 ⟨_, runOps_playedInterval h hp hq, hrun⟩, hpaused, ?_⟩
    rw [helapsed, List.map_cons, List.sum_cons, State.afterInterval, BitVec.add_assoc]

end

/-- Settles O49: no step changes the sum that the run leads to, and a run of intervals is taken one interval at a time. -/
theorem accumulatorSumsPlayedIntervals : Obligations.AccumulatorSumsPlayedIntervals := by
  refine ⟨fun ops s t hh hs hp he hreset hstop h _ => ?_, fun l s hf hh hs hp he hl => ?_⟩
  · rw [runOps_elapsed hreset hstop hs hh h, State.elapsedAfter, State.intervalStart_of_paused hp, he, zero_add]
  · obtain ⟨t, hrun, hpaused, helapsed⟩ := runOps_intervals ⟨hf, hh, hs, hp⟩ hl
    exact ⟨t, hrun, hpaused, by rw [helapsed, he, zero_add]⟩

end Sys2Proof.Machine
end

section
/-! SUPPORT. Every software access is one general store (R94) or load (R97) of its own offset and size: which stores R99 and
R100 refuse, and what the others do. -/

namespace Sys2Proof

/-- The low `n` bytes of a number are told by its low `8n` bits alone, whatever its width (R49). -/
theorem leBytes_congr {w w' n : Nat} {v : BitVec w} {v' : BitVec w'} (h : ∀ k < 8 * n, v.getLsbD k = v'.getLsbD k) :
    leBytes n v = leBytes n v' := by
  induction n generalizing v v' with
  | zero => rfl
  | succ n ih =>
    have hbyte : v.setWidth 8 = v'.setWidth 8 := by
      refine BitVec.eq_of_getLsbD_eq fun k hk => ?_
      rw [BitVec.getLsbD_setWidth, BitVec.getLsbD_setWidth, h k (by omega)]
    have hrest : leBytes n (v >>> 8) = leBytes n (v' >>> 8) := by
      refine ih fun k hk => ?_
      rw [BitVec.getLsbD_ushiftRight, BitVec.getLsbD_ushiftRight, h (8 + k) (by omega)]
    rw [leBytes, leBytes, hbyte, hrest]

/-- A store's bytes are the same whether its value is widened to a word or not (R72). -/
theorem leBytes_setWidth {w m : Nat} (n : Nat) (v : BitVec w) (h : 8 * n ≤ m) : leBytes n (v.setWidth m) = leBytes n v :=
  leBytes_congr fun k hk => by simp [(by omega : k < m)]

end Sys2Proof

namespace Sys2Proof.Machine

/-- The value of a store as a word, of which as many low bytes are stored as the access has (R72): `exec_store`. -/
def storedWord : Instr → Word
  | .swTimecmpLo w | .swTimecmpHi w | .swTimeLo w | .swTimeHi w | .sw _ w => w
  | .sb _ v => v.setWidth 32
  | .sh _ v => v.setWidth 32
  | .start | .play | .pause | .stop | .reset => 0
  | .lwTimeLo | .lwTimeHi | .lwTimecmpLo | .lwTimecmpHi | .lb _ | .lh _ | .lw _ => 0
  | .tick | .clkSet _ | .csrSet _ _ | .tWlo | .tWhi | .tEval | .hZlo | .hZhi => 0

/-- A compare store is a word store at exactly one of the two halves (R95, R96). -/
theorem isCompareStore_iff {i : Instr} (hi : isStore i = true) :
    isCompareStore i = true ↔ (accessOf i).2 = 4 ∧ ((accessOf i).1 = 0x20 ∨ (accessOf i).1 = 0x24) := by
  cases i with
  | swTimecmpLo | swTimecmpHi | swTimeLo | swTimeHi | sb | sh => simp [isCompareStore, accessOf]
  | sw off w => simp [isCompareStore, accessOf, ← BitVec.toNat_inj]
  | _ => cases hi

/-- R99 and R100: a store that touches TIME, or the compare range without being a half's word store. -/
theorem isRefusedStore_iff {i : Instr} (hi : isStore i = true) :
    isRefusedStore i = true ↔ touchesTime (accessOf i).1 (accessOf i).2 = true ∨
      touchesCompare (accessOf i).1 (accessOf i).2 = true ∧ isCompareStore i = false := by
  have htime : touchesTime (accessOf i).1 (accessOf i).2 = true → isCompareStore i = false := fun ht => by
    rw [touchesTime_iff] at ht
    rw [Bool.eq_false_iff, Ne, isCompareStore_iff hi]
    omega
  simp only [isRefusedStore, hi, Bool.true_and, Bool.and_eq_true, Bool.not_eq_true', Bool.or_eq_true]
  tauto

section
variable {s : State} {i : Instr}

/-- Every software store is the general store of its own offset, size and value (R94). -/
theorem exec_store (hi : isStore i = true) (hf : s.fatal = none) :
    exec i s = .next (s.store (accessOf i).1 (accessOf i).2 (storedWord i)) := by
  cases i with
  | swTimecmpLo | swTimecmpHi | swTimeLo | swTimeHi | sb | sh | sw => exact State.act_of_fatal_none hf _
  | _ => cases hi

/-- A store that R99 or R100 refuses sets the mark and does nothing else. -/
theorem exec_of_isRefusedStore (hf : s.fatal = none) (hi : isStore i = true) (h : isRefusedStore i = true) :
    exec i s = .next s.refuse := by
  rw [exec_store hi hf]
  rw [isRefusedStore_iff hi, Bool.eq_false_iff, Ne, isCompareStore_iff hi] at h
  rcases s.store_cases (accessOf i).1 (accessOf i).2 (storedWord i) with
    ⟨-, he⟩ | ⟨hn, ho, -⟩ | ⟨hn, ho, -⟩ | ⟨ht, hc, -⟩
  · rw [he]
  · rw [hn, ho] at h
    exact absurd h (by decide)
  · rw [hn, ho] at h
    exact absurd h (by decide)
  · simp [ht, hc] at h

/-- A compare store before the Watcher exists is the memory's alone (R98). -/
theorem State.storeCompare_unwatched {off : Nat} (w : Word) (hw : s.watcherOn = false) :
    s.storeCompare off w = s.memStore (s.cfg.addr off) wordBytes w := by
  simp [State.storeCompare, State.notify, hw]

/-- A store that is not refused is the memory's alone where the Watcher does not act on it (R94, R98). -/
theorem exec_store_unwatched (hf : s.fatal = none) (hi : isStore i = true) (hr : isRefusedStore i = false)
    (hw : isCompareStore i = false ∨ s.watcherOn = false) :
    exec i s = .next (s.memStore (s.cfg.addr (accessOf i).1) (accessOf i).2 (storedWord i)) := by
  rw [exec_store hi hf]
  rw [Bool.eq_false_iff, Ne, isRefusedStore_iff hi] at hr
  rw [Bool.eq_false_iff, Ne, isCompareStore_iff hi] at hr hw
  rcases s.store_cases (accessOf i).1 (accessOf i).2 (storedWord i) with
    ⟨h, -⟩ | ⟨hn, ho, he⟩ | ⟨hn, ho, he⟩ | ⟨-, -, he⟩
  · exact absurd h hr
  · rw [he, State.storeCompare_unwatched _ (hw.resolve_left (by simp [hn, ho])), hn, ho]
  · rw [he, State.storeCompare_unwatched _ (hw.resolve_left (by simp [hn, ho])), hn, ho]
  · rw [he]

/-- A software store of which some byte is outside the memory region (log 7). -/
theorem State.memStore_invalid {a n b : Nat} (v : Word) (h : s.cfg.firstInvalid a n = some b) :
    s.memStore a n v = { s with mem := s.mem.scramble s.cfg a (freeBytes s.draws n), draws := s.draws + n } := by
  simp [State.memStore, h]

/-- A store outside the window, inside the memory region, stores its bytes and does nothing else (R94). -/
theorem exec_store_outside (hf : s.fatal = none) (hi : isStore i = true)
    (hout : (accessOf i).1 + (accessOf i).2 ≤ 0x18 ∨ 0x28 ≤ (accessOf i).1)
    (hv : s.cfg.firstInvalid (s.cfg.addr (accessOf i).1) (accessOf i).2 = none) :
    exec i s = .next
      { s with mem := s.mem.writeBytes (s.cfg.addr (accessOf i).1) (leBytes (accessOf i).2 (storedWord i)) } := by
  have hr : isRefusedStore i = false := by
    rw [Bool.eq_false_iff, Ne, isRefusedStore_iff hi, touchesTime_iff, touchesCompare_iff]
    omega
  have hc : isCompareStore i = false := by
    rw [Bool.eq_false_iff, Ne, isCompareStore_iff hi]
    omega
  rw [exec_store_unwatched hf hi hr (.inl hc), State.memStore_valid _ hv]

/-- Every software load is the general load of its own offset and size (R97). -/
theorem exec_load (hi : isLoad i = true) (hf : s.fatal = none) :
    exec i s = .next (s.load (accessOf i).1 (accessOf i).2) := by
  cases i with
  | lwTimeLo | lwTimeHi | lwTimecmpLo | lwTimecmpHi | lb | lh | lw => exact State.act_of_fatal_none hf _
  | _ => cases hi

end

/-- Settles O38: each of these stores touches TIME. -/
theorem timeStoresRefused : Obligations.TimeStoresRefused := by
  intro s off b h w hf
  have hrefused {i : Instr} (hi : isStore i = true) (ht : touchesTime (accessOf i).1 (accessOf i).2 = true) :
      exec i s = .next s.refuse := exec_of_isRefusedStore hf hi ((isRefusedStore_iff hi).2 (.inl ht))
  refine ⟨hrefused rfl rfl, hrefused rfl rfl, ?_, ?_, ?_⟩ <;>
    exact fun hhi hlo => hrefused rfl (touchesTime_iff.2 ⟨Nat.lt_succ_of_le hhi, Nat.lt_succ_of_le hlo⟩)

/-- Settles O39: each of these stores touches the compare range and is no compare store. -/
theorem compareSubwordStoresRefused : Obligations.CompareSubwordStoresRefused := by
  intro s off b h w hf
  have hrefused {i : Instr} (hi : isStore i = true) (hc : isCompareStore i = false)
      (ht : (accessOf i).1 ≤ 0x27 ∧ 0x20 < (accessOf i).1 + (accessOf i).2) : exec i s = .next s.refuse :=
    exec_of_isRefusedStore hf hi
      ((isRefusedStore_iff hi).2 (.inr ⟨touchesCompare_iff.2 ⟨Nat.lt_succ_of_le ht.1, ht.2⟩, hc⟩))
  refine ⟨fun hhi hlo => hrefused rfl rfl ⟨hhi, Nat.lt_succ_of_le hlo⟩,
    fun hhi hlo => hrefused rfl rfl ⟨hhi, Nat.lt_succ_of_le hlo⟩, fun hhi hlo hneLo hneHi => ?_⟩
  have hc : isCompareStore (.sw off w) = false := by
    rw [Bool.eq_false_iff, Ne, isCompareStore_iff rfl]
    exact fun ⟨_, ho⟩ => ho.elim hneLo hneHi
  exact hrefused rfl hc ⟨hhi, Nat.lt_succ_of_le hlo⟩

/-- Settles O36: the three widths of a store outside the window, the narrow ones widened to a word. -/
theorem storesOutsideTheWindow : Obligations.StoresOutsideTheWindow := by
  intro s off b h w hf
  refine ⟨fun hout hv => ?_, fun hout hv => ?_, exec_store_outside (i := .sw off w) hf rfl⟩
  · rw [exec_store_outside (i := .sb off b) hf rfl hout hv]
    simp [accessOf, storedWord, leBytes]
  · rw [exec_store_outside (i := .sh off h) hf rfl hout hv]
    simp only [accessOf, storedWord, leBytes_setWidth 2 h (by decide : 8 * 2 ≤ 32)]

/-- Settles O40: the two cases of a load. -/
theorem loadsReturnMemory : Obligations.LoadsReturnMemory := by
  intro s i hf hi
  rw [exec_load hi hf]
  rcases s.load_eq (accessOf i).1 (accessOf i).2 with ⟨hv, he⟩ | ⟨b, hb, he⟩ <;> rw [he]
  · exact ⟨fun _ => rfl, fun b hb => by simp [hv] at hb⟩
  · exact ⟨fun hv => by simp [hb] at hv, fun _ _ => ⟨_, rfl⟩⟩

end Sys2Proof.Machine
end

section
/-! SUPPORT. The word stores to the two halves of the compare value (R95, R96): with the Watcher and before it exists, the
halves apart (R102), and an evaluation between them (R101). -/

namespace Sys2Proof.Machine

section
variable {s : State} {i : Instr} {w : Word}

/-- A word store to the low half with the Watcher, by either of its instructions (R94, R95). -/
theorem exec_storeLo_watched (hf : s.fatal = none) (hi : i = .swTimecmpLo w ∨ i = .sw 0x20#8 w)
    (hw : s.watcherOn = true) :
    exec i s = .next { s.memStore (s.cfg.addr (accessOf i).1) (accessOf i).2 w with
      cmpValue := setLowHalf s.cmpValue w, armed := true } := by
  rcases hi with rfl | rfl <;> exact exec_swTimecmpLo_watched w hf hw

/-- A word store to the high half with the Watcher, by either of its instructions (R94, R96). -/
theorem exec_storeHi_watched (hf : s.fatal = none) (hi : i = .swTimecmpHi w ∨ i = .sw 0x24#8 w)
    (hw : s.watcherOn = true) :
    exec i s = .next { s.memStore (s.cfg.addr (accessOf i).1) (accessOf i).2 w with
      cmpValue := setHighHalf s.cmpValue w, armed := true } := by
  rcases hi with rfl | rfl <;> exact exec_swTimecmpHi_watched w hf hw

/-- Before the Watcher exists a store to a half stores its word and does nothing else (R98). -/
theorem exec_storeHalf_unwatched {off : Nat} (hf : s.fatal = none)
    (hi : (i = .swTimecmpLo w ∧ off = 0x20) ∨ (i = .swTimecmpHi w ∧ off = 0x24)) (hw : s.watcherOn = false)
    (hv : s.cfg.firstInvalid (s.cfg.addr off) 4 = none) :
    exec i s = .next { s with mem := s.mem.writeBytes (s.cfg.addr off) (leBytes 4 w) } := by
  rw [← State.memStore_valid w hv]
  rcases hi with ⟨rfl, rfl⟩ | ⟨rfl, rfl⟩ <;> exact exec_store_unwatched hf rfl rfl (.inr hw)

end

/-- Settles O32: the store with the Watcher and without. -/
theorem storeCompareLow : Obligations.StoreCompareLow := by
  intro s w hf
  refine ⟨fun hw => ⟨_, exec_swTimecmpLo_watched w hf hw, rfl, rfl⟩,
    fun hv => ⟨fun hw => ?_, fun hw => exec_storeHalf_unwatched hf (.inl ⟨rfl, rfl⟩) hw hv⟩⟩
  rw [exec_swTimecmpLo_watched w hf hw, State.memStore_valid _ hv]
  rfl

/-- Settles O33: the store with the Watcher and without. -/
theorem storeCompareHigh : Obligations.StoreCompareHigh := by
  intro s w hf
  refine ⟨fun hw => ⟨_, exec_swTimecmpHi_watched w hf hw, rfl, rfl⟩,
    fun hv => ⟨fun hw => ?_, fun hw => exec_storeHalf_unwatched hf (.inr ⟨rfl, rfl⟩) hw hv⟩⟩
  rw [exec_swTimecmpHi_watched w hf hw, State.memStore_valid _ hv]
  rfl

/-- Settles O35: both stores are the memory's alone, and START reads neither the memory nor the compare value. -/
theorem storesBeforeStartAreLost : Obligations.StoresBeforeStartAreLost := by
  intro s w i off hi hf hstart hw hh hm hv
  have hoff : 0x20 ≤ off ∧ off + 4 ≤ 0x28 := by omega
  have hvalid : s.cfg.firstInvalid (s.cfg.addr off) 4 = none :=
    Config.firstInvalid_none_sub hv (by simp only [Config.addr]; omega) (by simp only [Config.addr]; omega)
  have hexec := exec_storeHalf_unwatched hf hi hw hvalid
  exact ⟨hexec, Memory.readWord_writeBytes w hm (Config.firstInvalid_none_lt hvalid (by decide)),
    fun a ha => Memory.read_writeBytes_outside (by simpa using ha),
    runOps_cons.2 ⟨_, hexec, runOps_single.2 (exec_start_of_stopped hf hh hstart (.inr hv))⟩⟩

/-- Settles O37: a store is refused, or the memory's alone, or a half that the Watcher takes. -/
theorem storesOutsideTheRegionComplete : Obligations.StoresOutsideTheRegionComplete := by
  intro s i b hf hi hb a n m
  have hmem (v : Word) : s.memStore a n v = { s with mem := m, draws := s.draws + n } := State.memStore_invalid v hb
  refine ⟨exec_of_isRefusedStore hf hi, fun hr hw => ?_, fun w h hw => ?_, fun w h hw => ?_,
    fun x hx => Memory.read_scramble_outside (by simpa using hx)⟩
  · rw [exec_store_unwatched hf hi hr hw, hmem]
  · rw [exec_storeLo_watched hf h hw, hmem]
    rfl
  · rw [exec_storeHi_watched hf h hw, hmem]
    rfl

/-! ### Runs that store to the halves -/

/-- What a run of compare accesses goes by: no fatal error, the Watcher exists, and the two halves of the compare value and
the latch are known. -/
structure State.Watching (s : State) (hi lo : Word) (armed : Bool) : Prop where
  fatal : s.fatal = none
  watcherOn : s.watcherOn = true
  cmpValue : s.cmpValue = joinHalves hi lo
  armed : s.armed = armed

section
variable {s : State} {hi lo : Word} {armed : Bool}

/-- A state with the Watcher, by the halves of its compare value (R78). -/
theorem State.watching (hf : s.fatal = none) (hw : s.watcherOn = true) :
    s.Watching (highHalf s.cmpValue) (lowHalf s.cmpValue) s.armed :=
  ⟨hf, hw, (joinHalves_highHalf_lowHalf _).symm, rfl⟩

/-- A low store replaces the low half and sets the latch (R95). -/
theorem State.Watching.exec_swTimecmpLo (w : Word) (h : s.Watching hi lo armed) :
    ∃ t, exec (.swTimecmpLo w) s = .next t ∧ t.Watching hi w true :=
  ⟨_, exec_swTimecmpLo_watched w h.fatal h.watcherOn, by simpa using h.fatal, by simpa using h.watcherOn,
    by rw [setLowHalf_eq, h.cmpValue, highHalf_joinHalves], rfl⟩

/-- A high store replaces the high half and sets the latch (R96). -/
theorem State.Watching.exec_swTimecmpHi (w : Word) (h : s.Watching hi lo armed) :
    ∃ t, exec (.swTimecmpHi w) s = .next t ∧ t.Watching w lo true :=
  ⟨_, exec_swTimecmpHi_watched w h.fatal h.watcherOn, by simpa using h.fatal, by simpa using h.watcherOn,
    by rw [setHighHalf_eq, h.cmpValue, lowHalf_joinHalves], rfl⟩

/-- A load changes neither the compare value nor the latch (R97). -/
theorem State.Watching.exec_load {i : Instr} (hload : isLoad i = true) (h : s.Watching hi lo armed) :
    ∃ t, exec i s = .next t ∧ t.Watching hi lo armed := by
  obtain ⟨hf, hw, hc, ha⟩ := h
  refine ⟨_, Machine.exec_load hload hf, ?_⟩
  rcases s.load_eq (accessOf i).1 (accessOf i).2 with ⟨-, he⟩ | ⟨b, -, he⟩ <;> rw [he]
  all_goals exact ⟨hf, hw, hc, ha⟩

end

/-- What the halves are after a store to one of them depends on the halves before it alone (R95, R96). -/
theorem exists_halves_after_store {v w : Word} {i : Instr} (hmem : i ∈ [Instr.swTimecmpLo v, .swTimecmpHi w])
    (hi lo : Word) : ∃ hi' lo', ∀ {s : State} {armed : Bool}, s.Watching hi lo armed →
      ∃ t, exec i s = .next t ∧ t.Watching hi' lo' true := by
  simp only [List.mem_cons, List.not_mem_nil, or_false] at hmem
  rcases hmem with rfl | rfl
  · exact ⟨hi, v, State.Watching.exec_swTimecmpLo v⟩
  · exact ⟨w, lo, State.Watching.exec_swTimecmpHi w⟩

/-- Loads before and after a store to a half leave the compare value and the latch that the store alone leaves (R102). -/
theorem runOps_load_store_load {s : State} {v w : Word} {st ld : Instr} (hf : s.fatal = none) (hw : s.watcherOn = true)
    (hst : st ∈ [Instr.swTimecmpLo v, .swTimecmpHi w]) (hld : isLoad ld = true) :
    ∃ t u, runOps [ld, st, ld] s = .next t ∧ exec st s = .next u ∧ t.cmpValue = u.cmpValue ∧ t.armed = u.armed := by
  have hs := State.watching hf hw
  obtain ⟨hi, lo, hstore⟩ := exists_halves_after_store hst (highHalf s.cmpValue) (lowHalf s.cmpValue)
  obtain ⟨s₁, h₁, w₁⟩ := hs.exec_load hld
  obtain ⟨s₂, h₂, w₂⟩ := hstore w₁
  obtain ⟨t, ht, wt⟩ := w₂.exec_load hld
  obtain ⟨u, hu, wu⟩ := hstore hs
  exact ⟨t, u, runOps_cons.2 ⟨s₁, h₁, runOps_cons.2 ⟨s₂, h₂, runOps_single.2 ht⟩⟩, hu,
    wt.cmpValue.trans wu.cmpValue.symm, wt.armed.trans wu.armed.symm⟩

/-- Settles O34: each store replaces its own half of what the store before it left, and a load leaves both. -/
theorem halfStoresIndependent : Obligations.HalfStoresIndependent := by
  intro s lo lo' hi hi' hf hw
  have hs := State.watching hf hw
  obtain ⟨s₁, h₁, w₁⟩ := hs.exec_swTimecmpLo lo
  obtain ⟨t, ht, wt⟩ := w₁.exec_swTimecmpHi hi
  obtain ⟨t', ht', wt'⟩ := wt.exec_swTimecmpLo lo'
  obtain ⟨s₂, h₂, w₂⟩ := hs.exec_swTimecmpHi hi
  obtain ⟨u, hu, wu⟩ := w₂.exec_swTimecmpLo lo
  obtain ⟨u', hu', wu'⟩ := wu.exec_swTimecmpHi hi'
  refine ⟨⟨t, u, ?_, ?_, wt.cmpValue, wu.cmpValue, wt.armed, wu.armed⟩, ⟨t', ?_, wt'.cmpValue⟩,
    ⟨u', ?_, wu'.cmpValue⟩, fun st hst ld hld => runOps_load_store_load hf hw hst (by fin_cases hld <;> rfl)⟩
  · exact runOps_cons.2 ⟨s₁, h₁, runOps_single.2 ht⟩
  · exact runOps_cons.2 ⟨s₂, h₂, runOps_single.2 hu⟩
  · exact runOps_cons.2 ⟨s₁, h₁, runOps_cons.2 ⟨t, ht, runOps_single.2 ht'⟩⟩
  · exact runOps_cons.2 ⟨s₂, h₂, runOps_cons.2 ⟨u, hu, runOps_single.2 hu'⟩⟩

/-- T4 fires where the interrupt condition holds (R107). -/
theorem exec_tEval_of_evaluate {s : State} {t : Time} (hf : s.fatal = none) (ht : s.tick = .eval t)
    (he : evaluate t s.cmpValue s.armed s.tie s.gie = true) :
    exec .tEval s = .next { s with delivered := s.delivered ++ [s.cfg.irqCode], armed := false, tick := .idle } := by
  simp only [exec, execTEval, State.act_of_fatal_none hf, ht, State.evaluateTick, he, if_true]
  rfl

/-- The low half and then the high half of a value give the value, whatever was there (R77, R78). -/
theorem setHighHalf_setLowHalf (c v : Time) : setHighHalf (setLowHalf c (lowHalf v)) (highHalf v) = v := by
  rw [setHighHalf_eq, setLowHalf_eq, lowHalf_joinHalves, joinHalves_highHalf_lowHalf]

/-- Settles O44: the low store sets the latch, so the evaluation fires on the torn value, and the high store completes the
value and sets the latch again. -/
theorem tornCompareValueMayFire : Obligations.TornCompareValueMayFire := by
  intro s t v hf hw ht htie hgie htorn
  rw [← setLowHalf_eq] at htorn
  have hfire : evaluate t (setLowHalf s.cmpValue (lowHalf v)) true s.tie s.gie = true := by
    simp [evaluate, htorn, htie, hgie]
  refine ⟨_, runOps_cons.2 ⟨_, exec_swTimecmpLo_watched (lowHalf v) hf hw, runOps_cons.2 ⟨_,
    exec_tEval_of_evaluate (t := t) ?_ ?_ ?_, runOps_single.2 (exec_swTimecmpHi_watched (highHalf v) ?_ ?_)⟩⟩, by simp,
    setHighHalf_setLowHalf s.cmpValue v, rfl⟩
  all_goals simpa

end Sys2Proof.Machine
end

section
/-! SUPPORT. The four sub-steps of a tick (R103 to R107), each with its invalid words, and the one sub-step that a phase of
the tick waits for (R110). -/

namespace Sys2Proof.Machine

section
variable {s s' : State} {t : Time}

/-- A paused tick is empty (R104). -/
theorem exec_tick_paused (hf : s.fatal = none) (hplay : s.playing = false) (htick : s.tick = .idle) :
    exec .tick s = .next s := by
  have hphase : (if s.playing then .wLo (s.reportedTime s.clk) else .idle) = s.tick := by simp [hplay, htick]
  rw [exec, execTick, State.act_of_fatal_none hf, hphase, ite_self]

/-- T2 where a byte of TIME_LO is invalid (R105, R115). -/
theorem exec_tWlo_fatal {b : Nat} (hf : s.fatal = none) (htick : s.tick = .wLo t)
    (hv : s.cfg.firstInvalid (s.cfg.addr offTimeLo) wordBytes = some b) : exec .tWlo s = .next (s.raiseFatal b) := by
  simp [exec, execTWlo, State.act_of_fatal_none hf, htick, State.writeWord, hv]

/-- T3 where a byte of TIME_HI is invalid (R106, R115). -/
theorem exec_tWhi_fatal {b : Nat} (hf : s.fatal = none) (htick : s.tick = .wHi t)
    (hv : s.cfg.firstInvalid (s.cfg.addr offTimeHi) wordBytes = some b) : exec .tWhi s = .next (s.raiseFatal b) := by
  simp [exec, execTWhi, State.act_of_fatal_none hf, htick, State.writeWord, hv]

/-- T4 ends the tick and does nothing else where the interrupt condition does not hold (R107). -/
theorem exec_tEval_of_not_evaluate (hf : s.fatal = none) (htick : s.tick = .eval t)
    (he : evaluate t s.cmpValue s.armed s.tie s.gie = false) : exec .tEval s = .next { s with tick := .idle } := by
  simp [exec, execTEval, State.act_of_fatal_none hf, htick, State.evaluateTick, he]

/-- R108: of its input classes one alone fires. -/
theorem evaluate_eq_true_iff {c : Time} {armed tie gie : Bool} :
    evaluate t c armed tie gie = true ↔ c.toNat ≤ t.toNat ∧ armed = true ∧ tie = true ∧ gie = true := by
  simp [evaluate, and_assoc]

/-- T2 that raises no fatal error moves the tick on to T3, with the time it sampled (R105). -/
theorem tick_of_exec_tWlo (h : exec .tWlo s = .next s') (htick : s.tick = .wLo t) (hf : s'.fatal = none) :
    s'.tick = .wHi t := by
  have hs := (exec_effect h).1
  cases hv : s.cfg.firstInvalid (s.cfg.addr offTimeLo) wordBytes with
  | some b =>
    cases h.symm.trans (exec_tWlo_fatal hs htick hv)
    cases hf
  | none =>
    cases h.symm.trans (exec_tWlo_valid hs htick hv)
    rfl

/-- T3 that raises no fatal error moves the tick on to T4, with the time it sampled (R106). -/
theorem tick_of_exec_tWhi (h : exec .tWhi s = .next s') (htick : s.tick = .wHi t) (hf : s'.fatal = none) :
    s'.tick = .eval t := by
  have hs := (exec_effect h).1
  cases hv : s.cfg.firstInvalid (s.cfg.addr offTimeHi) wordBytes with
  | some b =>
    cases h.symm.trans (exec_tWhi_fatal hs htick hv)
    cases hf
  | none =>
    cases h.symm.trans (exec_tWhi_valid hs htick hv)
    rfl

/-- T4 ends the tick, whether it fires or not (R107). -/
theorem tick_of_exec_tEval (h : exec .tEval s = .next s') (htick : s.tick = .eval t) : s'.tick = .idle := by
  have hs := (exec_effect h).1
  cases he : evaluate t s.cmpValue s.armed s.tie s.gie with
  | true =>
    cases h.symm.trans (exec_tEval_of_evaluate hs htick he)
    rfl
  | false =>
    cases h.symm.trans (exec_tEval_of_not_evaluate hs htick he)
    rfl

end

/-- Settles O22: when T1 is enabled, and its two cases. -/
theorem tickSamplesTime : Obligations.TickSamplesTime := by
  intro s hf
  obtain ⟨-, -, -, hen, -⟩ := stepsWaitUnlessEnabled s hf
  exact ⟨hen, fun hs ht hp => exec_tick_playing hf hs hp ht, fun _ ht hp => exec_tick_paused hf hp ht⟩

/-- Settles O23: T2 and T3, each where its word is valid and where it is not. -/
theorem tickPublishesHalves : Obligations.TickPublishesHalves := fun _ _ hf =>
  ⟨fun ht => ⟨exec_tWlo_valid hf ht, fun _ => exec_tWlo_fatal hf ht⟩,
    fun ht => ⟨exec_tWhi_valid hf ht, fun _ => exec_tWhi_fatal hf ht⟩⟩

/-- Settles O24: T4's two cases, by the input class that fires. -/
theorem tickEvaluates : Obligations.TickEvaluates := by
  intro s t hf ht
  rw [← evaluate_eq_true_iff, Bool.not_eq_true]
  exact ⟨exec_tEval_of_evaluate hf ht, exec_tEval_of_not_evaluate hf ht⟩

/-! ### The sub-step that a phase waits for -/

/-- The sub-step that moves a tick on from a phase: `State.ready_iff_nextStep`, `Effect.tick_eq_of_ne_nextStep`. -/
def TickPhase.nextStep : TickPhase → Instr
  | .idle => .tick
  | .wLo _ => .tWlo
  | .wHi _ => .tWhi
  | .eval _ => .tEval

/-- A sub-step of a tick in flight is ready exactly in the phase that waits for it (R105 to R107). -/
theorem State.ready_iff_nextStep {s : State} {j : Instr} (hj : j ∈ [Instr.tWlo, .tWhi, .tEval]) :
    s.ready j = true ↔ s.tick.nextStep = j := by
  fin_cases hj <;> cases ht : s.tick <;> simp [State.ready, TickPhase.nextStep, ht]

/-- The sub-step that the phase waits for is ready: a tick in flight's in any state, T1 while started (R103, R105 to
R107). -/
theorem State.ready_nextStep {s : State} (h : s.tick = .idle → s.started = true) : s.ready s.tick.nextStep = true := by
  cases ht : s.tick with
  | idle => simp [TickPhase.nextStep, State.ready, State.mayBeginTick, ht, h ht]
  | wLo | wHi | eval => simp [TickPhase.nextStep, State.ready, ht]

/-- No step but the one that the phase waits for changes the phase (R110). -/
theorem Effect.tick_eq_of_ne_nextStep {s t : State} {i : Instr} (he : Effect s i t) (hi : i ≠ s.tick.nextStep) :
    t.tick = s.tick := by
  cases he with
  | sampled _ ht | wroteLo _ ht | wroteHi _ ht | fired _ ht | notFired _ ht =>
    rw [ht] at hi
    exact absurd rfl hi
  | _ => simp

/-- Settles O26: the phase stays, and with it the readiness of the sub-step that it waits for. -/
theorem inFlightTickNotCancelled : Obligations.InFlightTickNotCancelled := by
  intro s t i j h hf hj hen hne
  obtain ⟨hs, he⟩ := exec_effect h
  rw [State.enabled_of_fatal_none hs, State.ready_iff_nextStep hj] at hen
  have htick : t.tick = s.tick := he.tick_eq_of_ne_nextStep (hen ▸ hne)
  refine ⟨htick, ?_⟩
  rw [State.enabled_of_fatal_none hf, State.ready_iff_nextStep hj, htick, hen]

end Sys2Proof.Machine
end

section
/-! SUPPORT. Raises against armings (R109): an event is paid for by the latch, and the latch by a compare store that the
Watcher sees. -/

namespace Sys2Proof.Machine

/-- Every step keeps what has been raised and the set latch within what was before it and the store it makes (R109). -/
theorem Effect.raises_le {s t : State} {i : Instr} (he : Effect s i t) :
    t.delivered.length + t.armed.toNat ≤
      s.delivered.length + s.armed.toNat + (isCompareStore i && s.watcherOn).toNat := by
  cases he with
  | fired _ _ hfire =>
    obtain ⟨-, harmed, -⟩ := evaluate_eq_true_iff.1 hfire
    simp [harmed]
  | watchedLo _ _ hi _ hw | watchedHi _ _ hi _ hw =>
    simp [hi, hw]
  | _ => simp [Nat.add_assoc]

/-- The stores the Watcher sees in a run: the first operation's, and those of the rest. -/
theorem seenStores_cons {i : Instr} {is : List Instr} {s u : State} (h : exec i s = .next u) :
    seenStores (i :: is) s = (isCompareStore i && s.watcherOn).toNat + seenStores is u := by
  simp only [seenStores, h]

/-- Settles O28, by induction on the operations. -/
theorem raisesBoundedByArmings : Obligations.RaisesBoundedByArmings := by
  intro ops
  induction ops with
  | nil =>
    intro s t h
    cases h
    exact Nat.le_add_right _ _
  | cons i is ih =>
    intro s t h
    obtain ⟨u, hu, hrun⟩ := runOps_cons.1 h
    have hstep := (exec_effect hu).2.raises_le
    have hrest := ih u t hrun
    rw [seenStores_cons hu]
    omega

end Sys2Proof.Machine
end

section
/-! SUPPORT. Fair runs (R112): a tick in flight reaches its T4 with the time it sampled, and a latch that is set stays set
until a T4 fires. -/

namespace Sys2Proof.Machine

/-- In a run, a tick that sampled the time `t` is evaluated at moment `n` or later (R107). -/
def EvaluatedFrom (st : Nat → State) (n : Nat) (t : Time) : Prop :=
  ∃ m, n ≤ m ∧ exec .tEval (st m) = .next (st (m + 1)) ∧ (st m).tick = .eval t

section
variable {st : Nat → State} {op : Nat → Instr} {n : Nat}

/-- No state of an infinite run has a fatal error (R114). -/
theorem Run.fatal_eq_none (h : Run st op) (k : Nat) : (st k).fatal = none := (exec_effect (h.steps k)).1

/-- What each step of a run does. -/
theorem Run.effect (h : Run st op) (k : Nat) : Effect (st k) (op k) (st (k + 1)) := (exec_effect (h.steps k)).2

/-- No step of a run writes the parameters (R6). -/
theorem Run.cfg_eq (h : Run st op) {m : Nat} (hm : n ≤ m) : (st m).cfg = (st n).cfg := by
  induction m, hm using Nat.le_induction with
  | base => rfl
  | succ m _ ih => exact (h.effect m).cfg_eq.trans ih

/-- Weak fairness as a rule: a fair step is taken from a condition that enables it and that every other step keeps (R112). -/
theorem FairRun.taken (h : FairRun st op) {i : Instr} (hi : i ∈ fairSteps) {P : Nat → Prop}
    (hen : ∀ m, n ≤ m → P m → (st m).enabled i = true) (hkeep : ∀ m, n ≤ m → P m → op m ≠ i → P (m + 1)) (hn : P n) :
    ∃ m, n ≤ m ∧ op m = i ∧ P m := by
  by_contra hnone
  push Not at hnone
  have hP (m : Nat) (hm : n ≤ m) : P m := by
    induction m, hm using Nat.le_induction with
    | base => exact hn
    | succ m hm ih => exact hkeep m hm ih fun hop => hnone m hm hop ih
  obtain ⟨m, hm, hop⟩ := h i hi n fun m hm => hen m hm (hP m hm)
  exact hnone m hm hop (hP m hm)

/-- Weak fairness is assumed for the sub-step that a phase waits for, whatever the phase (R112). -/
theorem TickPhase.nextStep_mem_fairSteps (p : TickPhase) : p.nextStep ∈ fairSteps := by
  cases p <;> simp [TickPhase.nextStep, fairSteps]

/-- The sub-step that a phase waits for is taken in that phase; where no tick is in flight, if the block stays started
(R110, R112). -/
theorem FairRun.nextStep_taken (hfair : FairRun st op) (hrun : Run st op) {p : TickPhase}
    (hn : (st n).tick = p) (hidle : p = .idle → ∀ m, n ≤ m → (st m).started = true) :
    ∃ m, n ≤ m ∧ exec p.nextStep (st m) = .next (st (m + 1)) ∧ (st m).tick = p := by
  have hen (m : Nat) (hm : n ≤ m) (hp : (st m).tick = p) : (st m).enabled p.nextStep = true := by
    subst hp
    rw [State.enabled_of_fatal_none (hrun.fatal_eq_none m), State.ready_nextStep fun h => hidle h m hm]
  have hkeep (m : Nat) (_ : n ≤ m) (hp : (st m).tick = p) (hop : op m ≠ p.nextStep) : (st (m + 1)).tick = p := by
    subst hp
    exact (hrun.effect m).tick_eq_of_ne_nextStep hop
  obtain ⟨m, hm, hop, hp⟩ := hfair.taken p.nextStep_mem_fairSteps hen hkeep hn
  exact ⟨m, hm, hop ▸ hrun.steps m, hp⟩

section
variable {t : Time}

/-- An evaluation from a later moment on is one from an earlier moment on. -/
theorem EvaluatedFrom.of_le {k : Nat} (hk : n ≤ k) (h : EvaluatedFrom st k t) : EvaluatedFrom st n t := by
  obtain ⟨m, hm, heval⟩ := h
  exact ⟨m, hk.trans hm, heval⟩

/-- An evaluation leaves no tick in flight (R107). -/
theorem EvaluatedFrom.eventually_idle (h : EvaluatedFrom st n t) : ∃ m, n ≤ m ∧ (st m).tick = .idle := by
  obtain ⟨m, hm, hexec, htick⟩ := h
  exact ⟨m + 1, Nat.le_succ_of_le hm, tick_of_exec_tEval hexec htick⟩

/-- A tick that has published both halves is evaluated (R107). -/
theorem FairRun.eval_evaluated (hfair : FairRun st op) (hrun : Run st op) (hn : (st n).tick = .eval t) :
    EvaluatedFrom st n t :=
  hfair.nextStep_taken hrun hn nofun

/-- A tick that has published the low half goes on to its T4 (R106). -/
theorem FairRun.wHi_evaluated (hfair : FairRun st op) (hrun : Run st op) (hn : (st n).tick = .wHi t) :
    EvaluatedFrom st n t := by
  obtain ⟨k, hk, hexec, htick⟩ := hfair.nextStep_taken hrun hn nofun
  have hnext : (st (k + 1)).tick = .eval t := tick_of_exec_tWhi hexec htick (hrun.fatal_eq_none (k + 1))
  exact (hfair.eval_evaluated hrun hnext).of_le (Nat.le_succ_of_le hk)

/-- A tick that has sampled goes on to its T4 (R105). -/
theorem FairRun.wLo_evaluated (hfair : FairRun st op) (hrun : Run st op) (hn : (st n).tick = .wLo t) :
    EvaluatedFrom st n t := by
  obtain ⟨k, hk, hexec, htick⟩ := hfair.nextStep_taken hrun hn nofun
  have hnext : (st (k + 1)).tick = .wHi t := tick_of_exec_tWlo hexec htick (hrun.fatal_eq_none (k + 1))
  exact (hfair.wHi_evaluated hrun hnext).of_le (Nat.le_succ_of_le hk)

end

/-- From every moment on there is one without a tick in flight (R110, R112). -/
theorem FairRun.eventually_idle (hfair : FairRun st op) (hrun : Run st op) (n : Nat) :
    ∃ m, n ≤ m ∧ (st m).tick = .idle := by
  cases ht : (st n).tick with
  | idle => exact ⟨n, le_refl n, ht⟩
  | wLo t => exact (hfair.wLo_evaluated hrun ht).eventually_idle
  | wHi t => exact (hfair.wHi_evaluated hrun ht).eventually_idle
  | eval t => exact (hfair.eval_evaluated hrun ht).eventually_idle

/-- While the timer plays for ever, a time reported from now on is evaluated (R104, R107). -/
theorem FairRun.reportedTime_evaluated (hfair : FairRun st op) (hrun : Run st op)
    (hplay : ∀ m, n ≤ m → (st m).started = true ∧ (st m).playing = true) :
    ∃ k, n ≤ k ∧ EvaluatedFrom st n ((st k).reportedTime (st k).clk) := by
  obtain ⟨j, hj, hidle⟩ := hfair.eventually_idle hrun n
  obtain ⟨k, hk, hexec, htick⟩ := hfair.nextStep_taken hrun hidle fun _ m hm => (hplay m (hj.trans hm)).1
  have hnk : n ≤ k := hj.trans hk
  obtain ⟨hstarted, hplaying⟩ := hplay k hnk
  have hsampled : (st (k + 1)).tick = .wLo ((st k).reportedTime (st k).clk) := by
    have hnext := hexec.symm.trans (exec_tick_playing (hrun.fatal_eq_none k) hstarted hplaying htick)
    injection hnext with hnext
    rw [hnext]
  exact ⟨k, hnk, (hfair.wLo_evaluated hrun hsampled).of_le (Nat.le_succ_of_le hnk)⟩

/-! ### The latch -/

/-- A set latch stays set, or the step delivers the one event that it stands for and clears it (R107). -/
theorem Effect.armed_or_fired {s t : State} {i : Instr} (he : Effect s i t) (ha : s.armed = true) :
    t.armed = true ∨ (t.delivered = s.delivered ++ [s.cfg.irqCode] ∧ t.armed = false) := by
  cases he with
  | fired => exact .inr ⟨rfl, rfl⟩
  | _ => left; simp [ha]

/-- A latch that is set stays set up to any later moment, or an event has been delivered for it (R107). -/
theorem Run.armed_or_fired (hrun : Run st op) (ha : (st n).armed = true) {m : Nat} (hm : n ≤ m) :
    (st m).armed = true ∨ ∃ k, n ≤ k ∧ (st (k + 1)).delivered = (st k).delivered ++ [(st n).cfg.irqCode] ∧
      (st (k + 1)).armed = false := by
  induction m, hm using Nat.le_induction with
  | base => exact .inl ha
  | succ m hm ih =>
    rcases ih with harmed | hfired
    · have hstep := (hrun.effect m).armed_or_fired harmed
      rw [hrun.cfg_eq hm] at hstep
      exact hstep.imp_right fun h => ⟨m, hm, h⟩
    · exact .inr hfired

end

/-- Settles O59: whatever the phase, the tick reaches its T4, which ends it. -/
theorem inFlightTickCompletes : Obligations.InFlightTickCompletes :=
  fun _ _ hrun hfair => hfair.eventually_idle hrun

/-- Settles O60: a time that the condition holds of is evaluated; if the latch is still set then, that T4 fires, and if it is
not, an earlier one has fired. -/
theorem armedConditionIsEventuallyRaised : Obligations.ArmedConditionIsEventuallyRaised := by
  intro st op n c hrun hfair hcond ha
  obtain ⟨k, hk, m, hm, hexec, htick⟩ := hfair.reportedTime_evaluated hrun fun m hm => (hcond m hm).imp_right And.left
  rcases hrun.armed_or_fired ha hm with harmed | hfired
  · obtain ⟨-, -, htie, hgie, hcmp, -⟩ := hcond m hm
    obtain ⟨-, -, -, -, -, hreached⟩ := hcond k hk
    have hfire := exec_tEval_of_evaluate (hrun.fatal_eq_none m) htick
      (evaluate_eq_true_iff.2 ⟨hcmp ▸ hreached, harmed, htie, hgie⟩)
    rw [hexec, hrun.cfg_eq hm] at hfire
    injection hfire with hnext
    exact ⟨m, hm, by rw [hnext], by rw [hnext]⟩
  · exact hfired

end Sys2Proof.Machine
end

section
/-! SUPPORT. The fatal configuration error (R114, R115): a step either leaves the field `fatal` alone, or it finds the first
invalid byte of a range that it checks, and then it changes nothing else. -/

namespace Sys2Proof.Machine

/-- Operation `i` checks the `n` bytes at `BASE + off` before it acts on them (R52, R84, R115): `Effect.fatal_eq_or`. -/
def State.Checks (s : State) (i : Instr) (off n : Nat) : Prop :=
  (i = .start ∧ s.watcherOn = false ∧ off = 0x20 ∧ n = 8) ∨
    ((i = .hZlo ∨ i = .tWlo) ∧ off = 0x18 ∧ n = 4) ∨ ((i = .hZhi ∨ i = .tWhi) ∧ off = 0x1C ∧ n = 4)

section
variable {s t : State} {i : Instr}

/-- Every range that a step checks lies in the window (R48). -/
theorem State.Checks.in_window {off n : Nat} (h : s.Checks i off n) : 0x18 ≤ off ∧ off + n ≤ 0x28 := by
  rcases h with ⟨-, -, rfl, rfl⟩ | ⟨-, rfl, rfl⟩ | ⟨-, rfl, rfl⟩ <;> decide

/-- Said once: a step raises the fatal error only for the first invalid byte of a range that it checks, and then changes
nothing else (R114, R115). -/
theorem Effect.fatal_eq_or (he : Effect s i t) :
    t.fatal = s.fatal ∨ ∃ b off n, t = s.raiseFatal b ∧ s.Checks i off n ∧
      s.cfg.firstInvalid (s.cfg.addr off) n = some b := by
  cases he with
  | startFatal b _ hw hv => exact .inr ⟨b, _, _, rfl, .inl ⟨rfl, hw, rfl, rfl⟩, hv⟩
  | zeroFatal _ b off hi hv =>
    refine .inr ⟨b, off, _, rfl, .inr ?_, hv⟩
    exact hi.imp (fun ⟨h, ho⟩ => ⟨.inl h, ho, rfl⟩) fun ⟨h, ho⟩ => ⟨.inl h, ho, rfl⟩
  | tickFatal _ b off hi hv =>
    refine .inr ⟨b, off, _, rfl, .inr ?_, hv⟩
    exact hi.imp (fun ⟨h, ho⟩ => ⟨.inr h, ho, rfl⟩) fun ⟨h, ho⟩ => ⟨.inr h, ho, rfl⟩
  | _ => left; simp

/-- A step that raises the fatal error, read off its two states. -/
theorem Effect.raised {a : Nat} (he : Effect s i t) (hs : s.fatal = none) (ht : t.fatal = some a) :
    t = s.raiseFatal a ∧ ∃ off n, s.Checks i off n ∧ s.cfg.firstInvalid (s.cfg.addr off) n = some a := by
  rcases he.fatal_eq_or with hsame | ⟨b, off, n, rfl, hchecks, hv⟩
  · simp [hsame, hs] at ht
  · obtain rfl : b = a := Option.some.inj ht
    exact ⟨rfl, off, n, hchecks, hv⟩

/-- A fatal address that a step records is an invalid byte of the window (R114, R115). -/
theorem Effect.fatalInWindow (he : Effect s i t) (h : s.FatalInWindow) : t.FatalInWindow := by
  rcases he.fatal_eq_or with hsame | ⟨b, off, n, rfl, hchecks, hv⟩
  · unfold State.FatalInWindow
    rwa [hsame, he.cfg_eq]
  · intro a ha
    obtain rfl : b = a := Option.some.inj ha
    obtain ⟨hlo, hhi, hinvalid, -⟩ := Config.firstInvalid_some hv
    obtain ⟨hoff, hend⟩ := hchecks.in_window
    simp only [State.raiseFatal_cfg, Config.addr, offTimeLo, offWindowEnd_eq] at hlo hhi ⊢
    exact ⟨by omega, by omega, hinvalid⟩

/-- T4 alone delivers, and the code that it delivers is TIMER_IRQ_CODE (R107, R111). -/
theorem Effect.deliveredCodes (he : Effect s i t) (h : s.DeliveredCodes) : t.DeliveredCodes := by
  cases he with
  | fired => exact List.forall_mem_append.2 ⟨h, List.forall_mem_singleton.2 rfl⟩
  | _ => simpa [State.DeliveredCodes] using h

/-- `WriteWord` that finds an invalid byte raises the fatal error and writes nothing (R52, R114). -/
theorem State.writeWord_of_invalid {a b : Nat} (v : Word) (done : State → State)
    (hv : s.cfg.firstInvalid a wordBytes = some b) : s.writeWord a v done = s.raiseFatal b := by
  simp [State.writeWord, hv]

/-- After a fatal error the machine has no step (R114). -/
theorem step_fatal {a : Nat} (hok : s.cfg.ok = true) (hf : s.fatal = some a) :
    step s = .fault (.fatalConfiguration a) := by
  simp [step, hok, hf]

end

/-- Settles O58: every operation keeps the two invariants and the parameters. -/
theorem fatalAddressAndCodesKept : Obligations.FatalAddressAndCodesKept := fun s _ hfatal hcodes h =>
  ⟨step_keeps (fun _ _ _ h => h) Effect.fatalInWindow hfatal h,
    step_keeps (fun _ _ _ h => h) Effect.deliveredCodes hcodes h,
    step_keeps (P := fun u => u.cfg = s.cfg) (fun _ _ _ h => h) (fun he hcfg => he.cfg_eq.trans hcfg) rfl h⟩

/-- Settles O10: the two raising operations, then any step that raises, then the fault of every later one. -/
theorem fatalErrorEndsTheRun : Obligations.FatalErrorEndsTheRun := by
  refine ⟨fun s a b v done => State.writeWord_of_invalid v done,
    fun s b hf hh hs hw hv => exec_start_fatal hf hh hs hw hv, fun s t i a hf h ht => ?_, fun s i a => exec_fatal i,
    fun s a => step_fatal⟩
  obtain ⟨hraised, off, n, -, hv⟩ := (exec_effect h).2.raised hf ht
  obtain ⟨-, -, hinvalid, -⟩ := Config.firstInvalid_some hv
  exact ⟨hraised, hinvalid⟩

/-- Settles O11: a step raises only for the first invalid byte of a range it checks, and such a range lies in the window. -/
theorem fatalErrorSites : Obligations.FatalErrorSites := by
  refine ⟨fun s t i a hf h ht => ?_, fun s t i hvalid hf h => ?_⟩
  · obtain ⟨-, off, n, hchecks, hv⟩ := (exec_effect h).2.raised hf ht
    exact ⟨off, n, hchecks, Config.firstInvalid_some hv⟩
  · have hwindow : s.WindowValid :=
      Config.firstInvalid_addr_eq_none (lo := 0x18) (n := 16) fun k hlo hhi => hvalid k hlo (by omega)
    exact ((exec_effect h).2.fatal_eq_of_windowValid hwindow).trans hf

end Sys2Proof.Machine
end

section
/-! SUPPORT. A masked timer (R118, R139): while an enable is off no step delivers an event or clears the latch. -/

namespace Sys2Proof.Machine

section
variable {s t : State} {i : Instr}

/-- T4 alone delivers or clears the latch, and it does neither while an enable is off (R107, R108, R118). -/
theorem Effect.silent_of_enable_off (he : Effect s i t) (hoff : s.tie = false ∨ s.gie = false) :
    t.delivered = s.delivered ∧ (s.armed = true → t.armed = true) := by
  cases he with
  | fired _ _ hfire =>
    obtain ⟨-, -, htie, hgie⟩ := evaluate_eq_true_iff.1 hfire
    simp [htie, hgie] at hoff
  | _ => simp

end

/-- Settles O29, by induction on the operations: no operation but CSR_SET writes the enables. -/
theorem maskedTimerNeverRaises : Obligations.MaskedTimerNeverRaises := by
  intro ops
  induction ops with
  | nil =>
    intro s t h _ _
    cases h
    exact ⟨rfl, id⟩
  | cons i is ih =>
    intro s t h hoff hcsr
    obtain ⟨u, hu, hrun⟩ := runOps_cons.1 h
    have he := (exec_effect hu).2
    obtain ⟨htie, hgie⟩ := he.enables_eq_or.resolve_right fun ⟨a, b, hi⟩ => hcsr a b (hi ▸ List.mem_cons_self)
    obtain ⟨hdelivered, harmed⟩ := he.silent_of_enable_off hoff
    obtain ⟨hdelivered', harmed'⟩ := ih u t hrun (by rwa [htie, hgie]) fun a b h => hcsr a b (List.mem_cons_of_mem i h)
    exact ⟨hdelivered'.trans hdelivered, harmed' ∘ harmed⟩

end Sys2Proof.Machine
end

section
/-! SUPPORT. Before the first START (R132, R134): no step but START makes the Watcher, and without a Watcher nothing arms, no
tick begins and nothing is delivered. -/

namespace Sys2Proof.Machine

section
variable {s t : State} {i : Instr}

/-- Once the Watcher exists, all that is asked is that its range is inside the memory region (R84). -/
theorem State.WatcherConsistent.of_watcherOn (hw : s.watcherOn = true)
    (hv : s.cfg.firstInvalid (s.cfg.addr offCmpLo) cmpRangeBytes = none) : s.WatcherConsistent :=
  ⟨fun hoff => by simp [hw] at hoff, fun _ => hv⟩

/-- A tick is in flight only once the Watcher exists (R132). -/
theorem State.WatcherConsistent.watcherOn_of_tick (h : s.WatcherConsistent) (ht : s.tick ≠ .idle) : s.watcherOn = true := by
  obtain ⟨hoff, -⟩ := h
  by_contra hw
  obtain ⟨-, -, hidle, -⟩ := hoff (by simpa using hw)
  exact ht hidle

/-- START creates the Watcher over a valid range; whatever else writes the latch, the compare value, the tick or the events
needs the Watcher: a compare store by itself, T1 since it is started, and T2 to T4 since a tick is in flight. -/
theorem Effect.watcherConsistent (he : Effect s i t) (hlegal : s.LifecycleLegal) (h : s.WatcherConsistent) :
    t.WatcherConsistent := by
  have hrange := h.2
  obtain ⟨-, hstarted⟩ := hlegal
  cases he with
  | created _ _ hv => exact .of_watcherOn rfl hv
  | sampled hs =>
    have hw := hstarted hs
    exact .of_watcherOn hw (hrange hw)
  | wroteLo _ ht | wroteHi _ ht | fired _ ht | notFired _ ht =>
    have hw := h.watcherOn_of_tick (by simp [ht])
    exact .of_watcherOn hw (hrange hw)
  | watchedLo _ _ _ _ hw | watchedHi _ _ _ _ hw =>
    exact .of_watcherOn (by simpa using hw) (by simpa using hrange hw)
  | _ => simpa [State.WatcherConsistent] using h

end

/-- Settles O57: every operation keeps the lifecycle legal and the Watcher consistent together. -/
theorem watcherConsistentKept : Obligations.WatcherConsistentKept := by
  intro s t hlegal hwatcher h
  have hboth : t.LifecycleLegal ∧ t.WatcherConsistent :=
    step_keeps (P := fun u => u.LifecycleLegal ∧ u.WatcherConsistent) (fun _ _ _ hu => hu)
      (fun he hu => ⟨he.lifecycleLegal hu.1, he.watcherConsistent hu.1 hu.2⟩) ⟨hlegal, hwatcher⟩ h
  exact hboth.2

end Sys2Proof.Machine
end

section
/-! SUPPORT. A tick that sampled before a STOP (R137, R138): its publish overwrites the zero writes, and its evaluation may
raise. -/

namespace Sys2Proof.Machine

/-- The zero writes keep the canonical form. -/
theorem Memory.wf_zeroTimeWords {m : Memory} {c : Config} (h : m.wf = true) (ha : c.addr offTimeLo + 8 ≤ addrSpace) :
    (m.zeroTimeWords c).wf = true := by
  rw [Memory.zeroTimeWords_eq]
  exact Memory.wf_writeBytes h (by simpa using ha)

/-- The memory with the two halves of a time in TIME_LO and TIME_HI: what T2 and T3 leave (`runOps_publish_evaluate`). -/
def Memory.publishTime (m : Memory) (c : Config) (t : Time) : Memory :=
  (m.writeBytes (c.addr offTimeLo) (leBytes wordBytes (lowHalf t))).writeBytes (c.addr offTimeHi)
    (leBytes wordBytes (highHalf t))

/-- The two words published read back as the time (R78). -/
theorem Memory.joinHalves_publishTime {m : Memory} {c : Config} {t : Time} (h : m.wf = true)
    (ha : c.addr offTimeLo + 8 ≤ addrSpace) :
    joinHalves ((m.publishTime c t).readWord (c.addr offTimeHi)) ((m.publishTime c t).readWord (c.addr offTimeLo)) = t :=
  (Memory.joinHalves_readWord _ _ h ha).trans (joinHalves_highHalf_lowHalf t)

section
variable {s : State} {t : Time}

/-- T4 writes the tick, the latch and the events alone, and an event is delivered exactly where the condition holds
(R107, R108). -/
theorem exec_tEval_delivers (hf : s.fatal = none) (htick : s.tick = .eval t) :
    ∃ armed delivered, exec .tEval s = .next { s with armed := armed, delivered := delivered, tick := .idle } ∧
      (delivered = s.delivered ++ [s.cfg.irqCode] ↔
        s.cmpValue.toNat ≤ t.toNat ∧ s.armed = true ∧ s.tie = true ∧ s.gie = true) := by
  rw [← evaluate_eq_true_iff]
  cases he : evaluate t s.cmpValue s.armed s.tie s.gie with
  | true => exact ⟨_, _, exec_tEval_of_evaluate hf htick he, by simp⟩
  | false => exact ⟨_, _, exec_tEval_of_not_evaluate hf htick he, by simp⟩

/-- T2 to T4 with nothing between, where both words are valid: the sampled time is in the memory, and an event is delivered
exactly where the condition holds for it (R105 to R108). -/
theorem runOps_publish_evaluate (hf : s.fatal = none) (htick : s.tick = .wLo t)
    (hlo : s.cfg.firstInvalid (s.cfg.addr offTimeLo) wordBytes = none)
    (hhi : s.cfg.firstInvalid (s.cfg.addr offTimeHi) wordBytes = none) :
    ∃ armed delivered, runOps [.tWlo, .tWhi, .tEval] s = .next
        { s with mem := s.mem.publishTime s.cfg t, armed := armed, delivered := delivered, tick := .idle } ∧
      (delivered = s.delivered ++ [s.cfg.irqCode] ↔
        s.cmpValue.toNat ≤ t.toNat ∧ s.armed = true ∧ s.tie = true ∧ s.gie = true) := by
  obtain ⟨armed, delivered, heval, hiff⟩ := exec_tEval_delivers (t := t)
    (s := { s with mem := s.mem.publishTime s.cfg t, tick := .eval t }) hf rfl
  exact ⟨armed, delivered, runOps_cons.2 ⟨_, exec_tWlo_valid hf htick hlo, runOps_cons.2
    ⟨_, exec_tWhi_valid hf rfl hhi, runOps_single.2 heval⟩⟩, hiff⟩

end

/-- Settles O27: the whole STOP leaves the tick in flight, T2 and T3 publish its time over the zeros, and T4 evaluates it
against a compare value, a latch and enables that nothing before it has changed. -/
theorem stalePublishAfterStop : Obligations.StalePublishAfterStop := by
  intro s t hf hh htick hm hw
  have hlo : s.cfg.firstInvalid (s.cfg.addr offTimeLo) wordBytes = none :=
    hw.firstInvalid_eq_none (by decide) (by decide)
  have hhi : s.cfg.firstInvalid (s.cfg.addr offTimeHi) wordBytes = none :=
    hw.firstInvalid_eq_none (by decide) (by decide)
  have ha : s.cfg.addr offTimeLo + 8 ≤ addrSpace := Config.firstInvalid_none_lt (n := 4) hhi (by decide)
  obtain ⟨_, _, hpublish, hiff⟩ := runOps_publish_evaluate (t := t) (s := { s with
    playing := false, started := false, elapsed := 0, sync := some s.clk, mem := s.mem.zeroTimeWords s.cfg })
    hf htick hlo hhi
  refine ⟨_, runOps_append (is := [.stop, .hZlo, .hZhi]).2 ⟨_, runOps_stop hf hh hlo hhi, hpublish⟩, rfl, rfl, ?_, hiff⟩
  exact Memory.joinHalves_publishTime (Memory.wf_zeroTimeWords hm ha) ha

end Sys2Proof.Machine
end

section
/-! SUPPORT. What a raise needs (R132, R142): a T4 that finds the interrupt condition, so a tick in flight; and a tick begins
only while playing. -/

namespace Sys2Proof.Machine

/-- The state is one in which T4 raises: a tick has its evaluation to come, and the condition holds for its time (R107). -/
def State.Raises (s : State) : Prop := ∃ t, s.tick = .eval t ∧ evaluate t s.cmpValue s.armed s.tie s.gie = true

section
variable {s t : State} {i : Instr}

/-- A step delivers nothing, or it is a T4 that raises (R107). -/
theorem Effect.delivered_eq_or_raises (he : Effect s i t) : t.delivered = s.delivered ∨ (i = .tEval ∧ s.Raises) := by
  cases he with
  | fired x ht hfire => exact .inr ⟨rfl, x, ht, hfire⟩
  | _ => left; simp

/-- While not playing and with no tick in flight, a step other than PLAY begins no tick (R104, R142). -/
theorem Effect.idle_of_not_playing (he : Effect s i t) (hp : s.playing = false) (ht : s.tick = .idle) (hi : i ≠ .play) :
    t.tick = .idle ∧ t.playing = false := by
  cases he with
  | play => exact absurd rfl hi
  | sampled _ _ hplay => simp [hp] at hplay
  | wroteLo _ htick | wroteHi _ htick => simp [ht] at htick
  | _ => simp [hp, ht]

/-- With no tick in flight T4 raises nothing. -/
theorem State.not_raises_of_idle (ht : s.tick = .idle) : ¬ s.Raises := by
  simp [State.Raises, ht]

end

/-- Settles O30, by induction on the operations: no step but PLAY leads to a tick, and without one nothing is raised. -/
theorem noEvaluationUnlessPlaying : Obligations.NoEvaluationUnlessPlaying := by
  intro ops
  induction ops with
  | nil =>
    intro s t h hp ht _
    cases h
    exact ⟨rfl, ht, hp⟩
  | cons i is ih =>
    intro s t h hp ht hplay
    obtain ⟨u, hu, hrun⟩ := runOps_cons.1 h
    have he := (exec_effect hu).2
    have hdelivered := he.delivered_eq_or_raises.resolve_right fun hr => State.not_raises_of_idle ht hr.2
    obtain ⟨htu, hpu⟩ := he.idle_of_not_playing hp ht (List.ne_of_not_mem_cons hplay).symm
    obtain ⟨hrest, hend⟩ := ih u t hrun hpu htu (List.not_mem_of_not_mem_cons hplay)
    exact ⟨hrest.trans hdelivered, hend⟩

/-- A run that delivers its first event has a T4 that raises, with nothing delivered before it. -/
theorem exists_first_raise {ops : List Instr} {s t : State} (h : runOps ops s = .next t) (hs : s.delivered = [])
    (ht : t.delivered ≠ []) : ∃ before after u, ops = before ++ [.tEval] ++ after ∧ runOps before s = .next u ∧
      u.delivered = [] ∧ u.Raises := by
  induction ops generalizing s with
  | nil =>
    cases h
    exact absurd hs ht
  | cons i is ih =>
    obtain ⟨u, hu, hrun⟩ := runOps_cons.1 h
    rcases (exec_effect hu).2.delivered_eq_or_raises with hsame | ⟨rfl, hraises⟩
    · obtain ⟨before, after, v, rfl, hbefore, hv⟩ := ih hrun (hsame.trans hs)
      exact ⟨i :: before, after, v, rfl, runOps_cons.2 ⟨u, hu, hbefore⟩, hv⟩
    · exact ⟨[], is, s, rfl, rfl, hs, hraises⟩

end Sys2Proof.Machine
end

section
/-! SUPPORT. The boot sequence (R132): what a run from block reset must have done for the state to be what it is. -/

namespace Sys2Proof.Machine

/-- The operations, in order, without which no run from block reset has its tick in a phase (`Effect.bootedBy`). -/
def TickPhase.bootOps : TickPhase → List Instr
  | .idle => []
  | .wLo _ => [.start, .play, .tick]
  | .wHi _ => [.start, .play, .tick, .tWlo]
  | .eval _ => [.start, .play, .tick, .tWlo, .tWhi]

/-- The operations taken since block reset account for the flags, the tick and the latch: START for `started` and the
Watcher, then PLAY for `playing`, then the sub-steps for the tick's phase; START and then a compare store for the latch. -/
structure State.BootedBy (s : State) (ops : List Instr) : Prop where
  started : s.started = true → List.Sublist [.start] ops
  watcherOn : s.watcherOn = true → List.Sublist [.start] ops
  playing : s.playing = true → List.Sublist [.start, .play] ops
  tick : List.Sublist s.tick.bootOps ops
  armed : s.armed = true → ∃ st, isCompareStore st = true ∧ List.Sublist [.start, st] ops

/-- Block reset needs no operations. -/
theorem State.resetWith_bootedBy (cfg : Config) (clk : Time) (tie gie : Bool) :
    (State.resetWith cfg clk tie gie).BootedBy [] :=
  ⟨nofun, nofun, nofun, .refl [], nofun⟩

section
variable {s t : State} {i : Instr} {ops : List Instr}

/-- What accounts for a state does so with more operations behind it. -/
theorem State.BootedBy.append (h : s.BootedBy ops) (is : List Instr) : s.BootedBy (ops ++ is) where
  started hs := (h.started hs).trans (List.sublist_append_left ops is)
  watcherOn hw := (h.watcherOn hw).trans (List.sublist_append_left ops is)
  playing hp := (h.playing hp).trans (List.sublist_append_left ops is)
  tick := h.tick.trans (List.sublist_append_left ops is)
  armed ha := (h.armed ha).imp fun _ hst => ⟨hst.1, hst.2.trans (List.sublist_append_left ops is)⟩

/-- What accounts for a state accounts for one with the same flags and tick, whose latch is accounted for. -/
theorem State.BootedBy.of_eq (h : s.BootedBy ops) (hs : t.started = s.started) (hw : t.watcherOn = s.watcherOn)
    (hp : t.playing = s.playing) (ht : t.tick = s.tick)
    (ha : t.armed = true → ∃ st, isCompareStore st = true ∧ List.Sublist [.start, st] ops) : t.BootedBy ops :=
  ⟨hs ▸ h.started, hw ▸ h.watcherOn, hp ▸ h.playing, ht ▸ h.tick, ha⟩

/-- A START, PLAY, sub-step or compare store that takes effect is added to what its own condition already needed. -/
theorem Effect.bootedBy (he : Effect s i t) (h : s.BootedBy ops) : t.BootedBy (ops ++ [i]) := by
  have hkept := h.append [i]
  have hnext {l : List Instr} (hl : List.Sublist l ops) : List.Sublist (l ++ [i]) (ops ++ [i]) := hl.append (.refl [i])
  have hstart : List.Sublist [i] (ops ++ [i]) := List.sublist_append_right ops [i]
  have htick := h.tick
  cases he with
  | started => exact { hkept with started := fun _ => hstart }
  | created => exact { hkept with started := fun _ => hstart, watcherOn := fun _ => hstart }
  | play hs => exact { hkept with playing := fun _ => hnext (h.started hs) }
  | pause => exact { hkept with playing := nofun }
  | stop => exact { hkept with started := nofun, playing := nofun }
  | sampled _ _ hp => exact { hkept with tick := hnext (h.playing hp) }
  | wroteLo _ ht | wroteHi _ ht =>
    rw [ht] at htick
    exact { hkept with tick := hnext htick }
  | fired => exact { hkept with tick := List.nil_sublist _, armed := nofun }
  | notFired => exact { hkept with tick := List.nil_sublist _ }
  | watchedLo _ _ hi _ hw | watchedHi _ _ hi _ hw =>
    have harmed := hnext (h.watcherOn hw)
    exact hkept.of_eq (by simp) (by simp) (by simp) (by simp) fun _ => ⟨i, hi, harmed⟩
  | _ => exact hkept.of_eq (by simp) (by simp) (by simp) (by simp) (by simpa using hkept.armed)

/-- A run of more operations behind those that account for a state is accounted for by all of them. -/
theorem runOps_bootedBy {is : List Instr} (h : runOps is s = .next t) (hs : s.BootedBy ops) : t.BootedBy (ops ++ is) := by
  induction is generalizing s ops with
  | nil =>
    cases h
    exact hs.append []
  | cons i is ih =>
    obtain ⟨u, hu, hrun⟩ := runOps_cons.1 h
    rw [List.append_cons]
    exact ih hrun ((exec_effect hu).2.bootedBy hs)

end

/-- Settles O31: the first event comes from a T4 that raises, and the operations before it account for its tick and latch. -/
theorem firstRaiseNeedsBootSequence : Obligations.FirstRaiseNeedsBootSequence := by
  intro ops cfg clk tie gie t h hdelivered
  obtain ⟨before, after, u, hops, hbefore, hnone, x, htick, hraise⟩ := exists_first_raise h rfl hdelivered
  obtain ⟨-, harmed, htie, hgie⟩ := evaluate_eq_true_iff.1 hraise
  have hboot : u.BootedBy before := runOps_bootedBy hbefore (State.resetWith_bootedBy cfg clk tie gie)
  have hphase := hboot.tick
  rw [htick] at hphase
  exact ⟨before, after, u, hops, hbefore, htie, hgie, harmed, hnone, hphase, hboot.armed harmed⟩

end Sys2Proof.Machine
end
